-- ==== Sys2Proof/Word.lean ====
section
/-! DEFINITION. The two bit-pattern types of the machine (00_scope.md R5, R6): a byte is 8 bits, a word is 32 bits.
Everything computed from them (sign reading, wrapping, extension) stands in Machine/Operands.lean. -/

namespace Sys2Proof

/-- A program byte, an opcode, a register-index operand: 8 bits (R5 `BYTE`, R6). -/
abbrev Byte := BitVec 8

/-- The contents of a general register or of `rem`: 32 bits (R5 `XLEN`, R6). -/
abbrev Word := BitVec 32

/-- The immediate of LOAD: 16 bits (R5 `IMMW`). -/
abbrev Imm16 := BitVec 16

end Sys2Proof
end

