-- ==== Sys2Proof/Machine/State.lean ====
section
/-! DEFINITION. The state of the machine (10_state.md R10 to R24) as plain data, the reasons a step or a host operation can end
without a next state, and the state after reset (R24). -/

namespace Sys2Proof.Machine

/-- 60_exceptions.md R120: why the machine halted. -/
inductive Cause where
  | hlt | illegalOpcode | exhausted | truncated | arithmeticFault | invalidRegister
  deriving DecidableEq, Repr

/-- R19: the run status. -/
inductive Status where
  | running
  | halted (cause : Cause)
  deriving DecidableEq, Repr

/-- 40_step_decode.md R78: the two notices. -/
inductive Notice where
  | haltNotice | illegalNotice
  deriving DecidableEq, Repr

/-- The program store: the bytes of the program by index, in one canonical form (`Memory.wf` in Machine/Ops.lean).
DESIGN CHOICE (log 2). -/
abbrev Memory := List Host.Cell

/-- R10: the architectural state, and the output trace of R78 beside it. -/
structure State where
  /-- R11, R12: the general registers `x[0]` to `x[31]`. -/
  x : Vector Word 32
  /-- R15: the program counter, a byte index. DESIGN CHOICE (log 1): a natural number, as R15 allows; safe. -/
  pc : Nat
  /-- R18: the remainder register. -/
  rem : Word
  /-- R20: the program store. -/
  prog : Memory
  /-- R20: the length of the program in bytes. -/
  len : Nat
  /-- R19: RUNNING, or HALTED with a cause. -/
  status : Status
  /-- R78: the notices emitted since the last reset, oldest first. Not architectural state: nothing reads it.
  DESIGN CHOICE (log 3), safe. -/
  notices : List Notice
  deriving DecidableEq, Repr

/-- Reasons a step stops with a fault: none. Every abnormal end that the spec describes is a transition of `status` to HALTED
(60_exceptions.md R129), which is a next state. DEDUCED (log 4), safe. -/
inductive Fault where
  deriving DecidableEq, Repr

/-- Reasons an operation is refused. -/
inductive Refusal where
  /-- Raised by an arm of `exec` whose instruction has no meaning yet; no arm does. Safe. -/
  | notModelled (mnemonic : String)
  /-- Raised by the host operation LoadProgram outside the reset state (40_step_decode.md R80: "Loading at any other time is
  refused"). Safe. -/
  | loadOutsideResetState
  /-- Raised by the host operation LoadProgram on more than `2^PCW - 1` bytes (R5, R80). DESIGN CHOICE (log 7), safe. -/
  | programTooLong
  deriving DecidableEq, Repr

/-- How an operation of the machine ends. -/
abbrev Result := Host.Outcome State Fault Refusal

/-- R24, R150: the machine after reset, every item as the spec states it; the output trace of the new run is empty (log 3). -/
def State.reset : State where
  x := Vector.replicate 32 0
  pc := 0
  rem := 0
  prog := []
  len := 0
  status := .running
  notices := []

end Sys2Proof.Machine
end

