-- ==== Sys2Proof/Machine/Ops.lean ====
section
/-! DEFINITION. The named operations over the program store, the registers and the status, `halt` (the machine's one way of
taking an exception, 60_exceptions.md R129; there is no return from it, R131) and the notices (40_step_decode.md R78). -/

namespace Sys2Proof.Machine

/-- What an index below `len` that the list does not name reads as. It only says how zero bytes are written down: LoadProgram
gives every index below `len` its byte. DESIGN CHOICE (log 2), unsafe in states that no host operation makes. -/
def Memory.unlisted : Byte := 0

/-- R20: byte `k` of the program store. Asked only below `len` (20_memory.md R32, R33). -/
def Memory.read : Memory → Nat → Byte
  | [], _ => Memory.unlisted
  | (c, v) :: rest, k => if c = k then v else Memory.read rest k

/-- Writes one byte, keeping the canonical form. -/
def Memory.write : Memory → Nat → Byte → Memory
  | [], k, b => if b = Memory.unlisted then [] else [(k, b)]
  | (c, v) :: rest, k, b =>
    if k < c then (if b = Memory.unlisted then (c, v) :: rest else (k, b) :: (c, v) :: rest)
    else if k = c then (if b = Memory.unlisted then rest else (k, b) :: rest)
    else (c, v) :: Memory.write rest k b

/-- Writes the bytes of a list at ascending indices from `k`. -/
def Memory.writeBytes : Memory → Nat → List Byte → Memory
  | m, _, [] => m
  | m, k, b :: bs => Memory.writeBytes (Memory.write m k b) (k + 1) bs

/-- The canonical form: indices strictly rising, no entry equal to what an unlisted index reads as. -/
abbrev Memory.wf (m : Memory) : Prop :=
  m.Pairwise (fun p q => p.1 < q.1) ∧ ∀ c ∈ m, c.2 ≠ Memory.unlisted

/-- R6, R33: `prog[k]`, which exists only below `len`. -/
def State.byteAt (s : State) (k : Nat) : Option Byte :=
  if k < s.len then some (s.prog.read k) else none

/-- The bytes from `pc` to the end of the program, as a list. -/
def State.remaining (s : State) : List Byte :=
  (List.range (s.len - s.pc)).map (fun k => s.prog.read (s.pc + k))

/-- R12, R70: a read of a general register; no register is special. -/
def State.readReg (s : State) (i : Fin 32) : Word := s.x[i]

/-- R12, R71: a write of a general register, all 32 bits. -/
def State.writeReg (s : State) (i : Fin 32) (v : Word) : State := { s with x := s.x.set i v }

/-- R16: the program counter takes a value. -/
def State.setPc (s : State) (k : Nat) : State := { s with pc := k }

/-- R18: a completing DIV writes `rem`. -/
def State.setRem (s : State) (v : Word) : State := { s with rem := v }

/-- R65: the program store is replaced. -/
def State.setProgram (s : State) (m : Memory) (n : Nat) : State := { s with prog := m, len := n }

/-- R19: the status takes a value. -/
def State.setStatus (s : State) (c : Status) : State := { s with status := c }

/-- R78: a notice is emitted; no item of R10 changes. -/
def State.notify (s : State) (n : Notice) : State := { s with notices := s.notices ++ [n] }

/-- R129: `halt(cause)`: status becomes HALTED with the cause, and nothing else happens. The caller ends the step. -/
def State.halt (s : State) (c : Cause) : State := s.setStatus (.halted c)

/-- R19: the `halted` field as a truth value. -/
def State.isHalted (s : State) : Bool :=
  match s.status with
  | .running => false
  | .halted _ => true

/-- R80: the reset state, in which a program may be loaded: `status = RUNNING`, `pc = 0`, all registers and `rem` zero.
DEDUCED (log 7), safe: a state with these values is one in which no step has been made since the reset. -/
def State.inResetState (s : State) : Bool :=
  decide (s.status = .running ∧ s.pc = 0 ∧ s.x = Vector.replicate 32 0 ∧ s.rem = 0)

end Sys2Proof.Machine
end

