-- ==== Sys2Proof/Syntax.lean ====
section
/-! DEFINITION. The closed set of six instructions (30_encoding.md R49), one constructor per row of spec/opcode_table.json.
A register-index operand is kept as the whole raw byte of the encoding (R51): values 32 to 255 are encodable, name no
register, and are dealt with by the meaning (40_step_decode.md R69).
DESIGN CHOICE (log 10), safe. -/

namespace Sys2Proof

/-- R49: the instructions. Operands stand in encoding order (R47, R48, R57). -/
inductive Instr where
  /-- Format Z, opcode 0 (R46, R110). -/
  | hlt
  /-- Format I, opcode 1: destination index and the 16-bit immediate (R47, R50, R85). -/
  | load (d : Byte) (imm : Imm16)
  /-- Format R, opcode 2: first source, second source, destination (R48, R91). -/
  | add (a b d : Byte)
  /-- Format R, opcode 3: minuend, subtrahend, destination (R48, R92). -/
  | sub (a b d : Byte)
  /-- Format R, opcode 4: first source, second source, destination (R48, R93). -/
  | mul (a b d : Byte)
  /-- Format R, opcode 5: dividend, divisor, destination of the quotient (R48, R100). -/
  | div (a b d : Byte)
  deriving DecidableEq, Repr

end Sys2Proof
end

