-- ==== Sys2Proof/WellFormed.lean ====
section
/-! DEFINITION. Which instructions are legal (30_encoding.md R51, R53): every register index is below 32. An instruction that
fails the check is still an encodable instruction, which the machine runs to a halt with `INVALID_REGISTER` (R69). -/

namespace Sys2Proof

/-- R51: the byte names a register. -/
def indexLegal (b : Byte) : Bool := decide (b.toNat < 32)

/-- R53: the legal instructions. HLT has no index; LOAD has `d` alone (its immediate may be anything); ADD, SUB, MUL and DIV
have `a`, `b` and `d`. -/
def Instr.wellFormed : Instr → Bool
  | .hlt => true
  | .load d _ => indexLegal d
  | .add a b d => indexLegal a && indexLegal b && indexLegal d
  | .sub a b d => indexLegal a && indexLegal b && indexLegal d
  | .mul a b d => indexLegal a && indexLegal b && indexLegal d
  | .div a b d => indexLegal a && indexLegal b && indexLegal d

end Sys2Proof
end

