-- ==== Sys2Proof/Machine/Operands.lean ====
section
/-! DEFINITION. The operand forms: how a word is read as an integer and written from one (00_scope.md R6), the immediate
(30_encoding.md R50), and the register-file multiplexer (40_step_decode.md R69 to R71) with its index check
(the spec's decision D5; log 9, UNVERIFIED). -/

namespace Sys2Proof.Machine

/-- R6, R11: `s(v)`, the two's-complement reading. -/
def signed (v : Word) : Int :=
  if v.getLsbD 31 then (v.toNat : Int) - 2 ^ 32 else (v.toNat : Int)

/-- R6: `wrap32(n)`, the pattern whose unsigned reading is `n mod 2^32`. -/
def wrap32 (n : Int) : Word := BitVec.ofNat 32 (n % 2 ^ 32).toNat

/-- R6, R50: `zext_32` of the LOAD immediate. -/
def zext32 (v : Imm16) : Word := v.zeroExtend 32

/-- R70: the register an index byte selects once R69 has passed: the low five bits. -/
def regSelect (b : Byte) : Fin 32 := ⟨b.toNat % 32, Nat.mod_lt _ (by decide)⟩

/-- R69, R71: format I. The index is checked before anything is written; on failure nothing is written. -/
def immediateForm (d : Byte) (v : Word) (s : State) : State :=
  if indexLegal d then s.writeReg (regSelect d) v else s.halt .invalidRegister

/-- R69, R70, R14: format R. All three indices are checked before any register is read or written; both operands are read from
the state the instruction begins in, and `finish` does the rest with the two operand values and the destination. -/
def registerForm (a b d : Byte) (finish : Word → Word → Fin 32 → State → State) (s : State) : State :=
  if indexLegal a && indexLegal b && indexLegal d then
    finish (s.readReg (regSelect a)) (s.readReg (regSelect b)) (regSelect d) s
  else s.halt .invalidRegister

end Sys2Proof.Machine
end

