-- ==== Sys2Proof/Machine/Arith.lean ====
section
/-! DEFINITION. ADD, SUB and MUL (42_arith.md R90 to R94): the exact result of the signed readings, wrapped
(the spec's decision D1; log 9, UNVERIFIED). -/

namespace Sys2Proof.Machine

/-- R90: what the three share: the result of the operation goes to the destination register and nothing else changes. -/
def writeResult (op : Int → Int → Int) (opA opB : Word) (dst : Fin 32) (s : State) : State :=
  s.writeReg dst (wrap32 (op (signed opA) (signed opB)))

/-- R91: `x[u(d)] <- wrap32(s(opA) + s(opB))`. -/
def execAdd (a b d : Byte) (s : State) : Result := .next (registerForm a b d (writeResult (fun m n => m + n)) s)

/-- R92: `x[u(d)] <- wrap32(s(opA) − s(opB))`. -/
def execSub (a b d : Byte) (s : State) : Result := .next (registerForm a b d (writeResult (fun m n => m - n)) s)

/-- R93: `x[u(d)] <- wrap32(s(opA) × s(opB))`. -/
def execMul (a b d : Byte) (s : State) : Result := .next (registerForm a b d (writeResult (fun m n => m * n)) s)

end Sys2Proof.Machine
end

