-- ==== Sys2Proof/Machine/Div.lean ====
section
/-! DEFINITION. DIV (43_div.md R100 to R105), by the spec's decisions D2, D3, D4 and D15 (log 9, UNVERIFIED). -/

namespace Sys2Proof.Machine

/-- R102, R103: the operands on which DIV halts with `ARITHMETIC_FAULT`. -/
def divFaults (opA opB : Word) : Bool :=
  decide (signed opB = 0) || (decide (signed opA = -2 ^ 31) && decide (signed opB = -1))

/-- R101: the quotient, rounded toward zero. -/
def quotient (n m : Int) : Int := n.tdiv m

/-- R101: the remainder `n − m × q`. -/
def remainder (n m : Int) : Int := n - m * quotient n m

/-- R100: the part of DIV after the index check: a fault writes nothing; otherwise the quotient and the remainder, both computed
from the operands as read, are written. -/
def finishDiv (opA opB : Word) (dst : Fin 32) (s : State) : State :=
  if divFaults opA opB then s.halt .arithmeticFault
  else (s.writeReg dst (wrap32 (quotient (signed opA) (signed opB)))).setRem
    (wrap32 (remainder (signed opA) (signed opB)))

/-- R100: signed division, the quotient to `x[u(d)]` and the remainder to `rem`. -/
def execDiv (a b d : Byte) (s : State) : Result := .next (registerForm a b d finishDiv s)

end Sys2Proof.Machine
end

