-- ==== Sys2Proof/Machine/Halt.lean ====
section
/-! DEFINITION. HLT and the illegal opcode (44_halt.md R110, R111). -/

namespace Sys2Proof.Machine

/-- R110: `notify(HALT_NOTICE); halt(HLT)`. -/
def execHlt (s : State) : Result := .next ((s.notify .haltNotice).halt .hlt)

/-- R111: `notify(ILLEGAL_NOTICE); halt(ILLEGAL_OPCODE)`. The illegal opcode has no row in the opcode table and so no constructor
of `Instr`; the fetch of an opcode byte 6 to 255 ends the step here. -/
def illegalOpcode (s : State) : State := (s.notify .illegalNotice).halt .illegalOpcode

end Sys2Proof.Machine
end

