-- ==== Sys2Proof/Machine/Load.lean ====
section
/-! DEFINITION. LOAD (41_load.md R85). -/

namespace Sys2Proof.Machine

/-- R85: `x[u(d)] <- zext_32(imm_hi ∥ imm_lo)`. -/
def execLoad (d : Byte) (imm : Imm16) (s : State) : Result := .next (immediateForm d (zext32 imm) s)

end Sys2Proof.Machine
end

