-- ==== Sys2Proof/Machine/Dispatch.lean ====
section
/-! DEFINITION. One arm per instruction, each one call of its meaning. -/

namespace Sys2Proof.Machine

-- 40_step_decode.md R66, "execute the instruction": runs after the fetches, with `pc` already past the instruction.
def exec (i : Instr) (s : State) : Host.Outcome State Fault Refusal :=
  match i with
  | .hlt => Sys2Proof.Machine.execHlt s
  | .load d imm => Sys2Proof.Machine.execLoad d imm s
  | .add a b d => Sys2Proof.Machine.execAdd a b d s
  | .sub a b d => Sys2Proof.Machine.execSub a b d s
  | .mul a b d => Sys2Proof.Machine.execMul a b d s
  | .div a b d => Sys2Proof.Machine.execDiv a b d s

end Sys2Proof.Machine
end

