-- ==== Sys2Proof/Decode.lean ====
section
/-! DEFINITION. The decoder (30_encoding.md R45 to R56), total on every byte list, rejecting by name, and after it the encoder
written from the same layouts (R46 to R48), and the view of an opcode-table word (R56). -/

namespace Sys2Proof

/-- R55: the class the opcode byte selects. -/
inductive OpClass where
  | hlt | load | add | sub | mul | div | illegal
  deriving DecidableEq, Repr

/-- Why a byte list does not begin with an instruction (R52, R53, R54). -/
inductive DecodeReject where
  /-- There is no opcode byte (40_step_decode.md R67). -/
  | noOpcode
  /-- The opcode byte is 6 to 255 (R52); the byte is given. -/
  | illegalOpcode (b : Byte)
  /-- An opcode 1 to 5 is followed by fewer than three bytes (R54). -/
  | truncated
  deriving DecidableEq, Repr

/-- R49, R55: the decoder of the opcode byte; all 8 bits take part. -/
def decodeOpcode (b0 : Byte) : OpClass :=
  match b0.toNat with
  | 0 => .hlt
  | 1 => .load
  | 2 => .add
  | 3 => .sub
  | 4 => .mul
  | 5 => .div
  | _ => .illegal

/-- R34, R50: the immediate, the byte at the lower index being the more significant. -/
def joinImm (hi lo : Byte) : Imm16 := hi ++ lo

/-- R47: format I assigns `d = o1`, `imm_hi = o2`, `imm_lo = o3`. -/
def assembleLoad (o1 o2 o3 : Byte) : Instr := .load o1 (joinImm o2 o3)

/-- Takes the three operand bytes of formats I and R, in fetch order (R55). -/
def takeOperands (assemble : Byte → Byte → Byte → Instr) :
    List Byte → Except DecodeReject (Instr × List Byte)
  | o1 :: o2 :: o3 :: rest => .ok (assemble o1 o2 o3, rest)
  | _ => .error .truncated

/-- The instruction at the head of a byte list and the bytes after it (R45, R53, R55). -/
def decode : List Byte → Except DecodeReject (Instr × List Byte)
  | [] => .error .noOpcode
  | b0 :: rest =>
    match decodeOpcode b0 with
    | .hlt => .ok (.hlt, rest)
    | .load => takeOperands assembleLoad rest
    | .add => takeOperands .add rest
    | .sub => takeOperands .sub rest
    | .mul => takeOperands .mul rest
    | .div => takeOperands .div rest
    | .illegal => .error (.illegalOpcode b0)

/-- R46, R47, R48: the bytes of an instruction, the one at the lowest program index first. -/
def encode : Instr → List Byte
  | .hlt => [0]
  | .load d imm => [1, d, imm.extractLsb' 8 8, imm.extractLsb' 0 8]
  | .add a b d => [2, a, b, d]
  | .sub a b d => [3, a, b, d]
  | .mul a b d => [4, a, b, d]
  | .div a b d => [5, a, b, d]

/-- R56: the table word of an instruction: its bytes, the first in the most significant position. -/
def tableWord (i : Instr) : Nat := (encode i).foldl (fun w b => 256 * w + b.toNat) 0

/-- R56: byte `k` of an `n`-byte table word, byte 0 being the most significant (the big-endian view of the stream). -/
def tableByte (n w k : Nat) : Byte := BitVec.ofNat 8 (w >>> (8 * (n - 1 - k)))

/-- R56: the bytes of a table word of `nbits` bits as the program store holds them, followed by zero bytes up to the longest
instruction, 4 bytes. DEDUCED (log 6), safe. -/
def tableBytes (nbits w : Nat) : List Byte :=
  (List.range (nbits / 8)).map (tableByte (nbits / 8) w) ++ List.replicate (4 - nbits / 8) 0

/-- The instruction the decoder reads from an opcode-table word (R56). -/
def decodeTableWord (nbits w : Nat) : Option Instr :=
  match decode (tableBytes nbits w) with
  | .ok (i, _) => some i
  | .error _ => none

end Sys2Proof
end

