-- ==== Sys2Proof/Machine/Fetch.lean ====
section
/-! DEFINITION. Fetching an instruction's bytes: the guarded fetch primitive (20_memory.md R32), the operand fetch
(40_step_decode.md R68) and everything of a step before the instruction executes (R66, R67, R76). In an answer, `.error t` says
that the step has ended in the state `t`; `.ok (i, t)` that the instruction `i` is to be executed in the state `t`, whose `pc`
is past the instruction's bytes. -/

namespace Sys2Proof.Machine

/-- R32: `Fetch()`; `none` is END, with nothing read and `pc` unchanged. -/
def fetch (s : State) : Option (Byte × State) :=
  if s.len ≤ s.pc then none else some (s.prog.read s.pc, s.setPc (s.pc + 1))

/-- R68: `FetchOperand()`; END halts with `TRUNCATED`, the bytes already fetched staying consumed. -/
def fetchOperand (s : State) : Except State (Byte × State) :=
  match fetch s with
  | none => .error (s.halt .truncated)
  | some p => .ok p

/-- R68, R55: the three operand bytes, in ascending order, and the instruction they make. -/
def fetchOperands (assemble : Byte → Byte → Byte → Instr) (s : State) : Except State (Instr × State) :=
  match fetchOperand s with
  | .error t => .error t
  | .ok (o1, s1) =>
    match fetchOperand s1 with
    | .error t => .error t
    | .ok (o2, s2) =>
      match fetchOperand s2 with
      | .error t => .error t
      | .ok (o3, s3) => .ok (assemble o1 o2 o3, s3)

/-- R66, R67: fetch of the opcode byte, decoding, and fetch of the operands. -/
def fetchInstr (s : State) : Except State (Instr × State) :=
  match fetch s with
  | none => .error (s.halt .exhausted)
  | some (b0, s1) =>
    match decodeOpcode b0 with
    | .hlt => .ok (.hlt, s1)
    | .load => fetchOperands assembleLoad s1
    | .add => fetchOperands .add s1
    | .sub => fetchOperands .sub s1
    | .mul => fetchOperands .mul s1
    | .div => fetchOperands .div s1
    | .illegal => .error (illegalOpcode s1)

/-- R66, R76: a step requested while HALTED ends at once and changes nothing. -/
def beginStep (s : State) : Except State (Instr × State) :=
  match s.status with
  | .halted _ => .error s
  | .running => fetchInstr s

/-- The state with the bytes of a list stored where the next step fetches: from `pc` on, the program being made long enough to
hold them and the machine RUNNING. DESIGN CHOICE (log 5), safe. -/
def storeAtPc (s : State) (bytes : List Byte) : State :=
  (s.setProgram (s.prog.writeBytes s.pc bytes) (max s.len (s.pc + bytes.length))).setStatus .running

end Sys2Proof.Machine
end

