-- ==== Sys2Proof/Machine/Step.lean ====
section
/-! DEFINITION. One step of the machine (40_step_decode.md R66), and the state whose next step runs a given table word. -/

namespace Sys2Proof.Machine

/-- R66: `Step()`. -/
def step (s : State) : Host.Outcome State Fault Refusal :=
  match beginStep s with
  | .error t => .next t
  | .ok (i, t) => exec i t

/-- The state with an opcode-table word stored where the next step fetches (log 5, log 6). -/
def State.withFetchWord (s : State) (nbits w : Nat) : State := storeAtPc s (tableBytes nbits w)

end Sys2Proof.Machine
end

