-- ==== Sys2Proof/Config.lean ====
section
/-! DEFINITION. The parameters of the implementation (00_scope.md R5). Only `PCW` is OPEN; every other parameter has one
value, which the types and rules of the model use directly. The spec has no free value (R79; 93_implementation_defined.md). -/

namespace Sys2Proof

/-- R5: the OPEN parameters, which a model takes as arguments. -/
structure Config where
  /-- R5, R15, D9: the width of the program counter in bits, default 32. -/
  pcw : Nat := 32
  deriving DecidableEq, Repr

/-- R5, R80: the longest program that may be loaded, `2^PCW - 1` bytes. -/
def Config.maxLen (c : Config) : Nat := 2 ^ c.pcw - 1

end Sys2Proof
end

