-- ==== Sys2Proof/Machine/Flags.lean ====
section
/-! DEFINITION. The machine has no status flags and no condition codes (10_state.md R21). What it has is the status register
(R19), whose two bit fields, `halted` and `cause`, the host can read; they are computed here from the enumeration. -/

namespace Sys2Proof.Machine

/-- 60_exceptions.md R120: the code of a cause. -/
def Cause.code : Cause → BitVec 3
  | .hlt => 1
  | .illegalOpcode => 2
  | .exhausted => 3
  | .truncated => 4
  | .arithmeticFault => 5
  | .invalidRegister => 6

/-- R19: the `halted` field, 0 = RUNNING, 1 = HALTED. -/
def Status.haltedField : Status → BitVec 1
  | .running => 0
  | .halted _ => 1

/-- R19, R120: the `cause` field, 0 when RUNNING. -/
def Status.causeField : Status → BitVec 3
  | .running => 0
  | .halted c => c.code

end Sys2Proof.Machine
end

