-- ==== Sys2Proof/Machine/HostOps.lean ====
section
/-! DEFINITION. The four operations the block offers its host, and nothing else (40_step_decode.md R65, R73 to R77, R80;
70_reset_and_hazards.md R150, R152). -/

namespace Sys2Proof.Machine

/-- R65: the host operations. -/
inductive HostOp where
  | reset
  | loadProgram (bytes : List Byte)
  | step
  | run
  deriving DecidableEq, Repr

/-- What a host operation leaves: the state, and the `done` output, which only Step has (R65, R73, R74). -/
structure HostReply where
  state : State
  done : Option Bool
  deriving DecidableEq, Repr

/-- R150: every item takes its reset value, whatever the state; the output trace of the new run is empty. DESIGN CHOICE (log 3), safe. -/
def hostReset (_ : State) : State := State.reset

/-- R65, R80: `prog <- bytes`, `len <- length(bytes)`, and nothing else, in the reset state only. -/
def loadProgram (cfg : Config) (bytes : List Byte) (s : State) : Result :=
  if s.inResetState = false then .refused .loadOutsideResetState
  else if cfg.maxLen < bytes.length then .refused .programTooLong
  else .next (s.setProgram (Memory.writeBytes [] 0 bytes) bytes.length)

/-- R73: the `done` output of a step that ended in `t`. -/
def stepDone (t : State) : Bool := t.isHalted

/-- R74: at most `n` turns of the loop `repeat done <- Step() until done`. -/
def runSteps : Nat → State → Result
  | 0, s => .next s
  | n + 1, s =>
    match step s with
    | .next t => if stepDone t then .next t else runSteps n t
    | .fault r => .fault r
    | .refused r => .refused r

/-- R75: no Run takes more steps than this. -/
def runBound (s : State) : Nat := s.len / 4 + 1

/-- R74, R75: `Run`, as many turns as it can take. DEDUCED (log 8), safe. -/
def run (s : State) : Result := runSteps (runBound s) s

/-- The reply to an operation that ended in a state, or how it ended otherwise. -/
def reply (done : State → Option Bool) : Result → Host.Outcome HostReply Fault Refusal
  | .next t => .next ⟨t, done t⟩
  | .fault r => .fault r
  | .refused r => .refused r

/-- R65: one host operation. -/
def hostOp (cfg : Config) (op : HostOp) (s : State) : Host.Outcome HostReply Fault Refusal :=
  match op with
  | .reset => reply (fun _ => none) (.next (hostReset s))
  | .loadProgram bytes => reply (fun _ => none) (loadProgram cfg bytes s)
  | .step => reply (fun t => some (stepDone t)) (step s)
  | .run => reply (fun _ => none) (run s)

/-- R79, R152: a sequence of host operations, one after another, stopping at the first that is refused. -/
def hostOps (cfg : Config) : List HostOp → State → Result
  | [], s => .next s
  | op :: rest, s =>
    match hostOp cfg op s with
    | .next r => hostOps cfg rest r.state
    | .fault r => .fault r
    | .refused r => .refused r

/-- R15, R17: the program counter as a host reads it from a register of `PCW` bits. -/
def State.pcBits (cfg : Config) (s : State) : BitVec cfg.pcw := BitVec.ofNat cfg.pcw s.pc

end Sys2Proof.Machine
end

