-- ==== Sys2Proof/Safety.lean ====
section
/-! DEFINITION. The terms in which claims about the machine are stated: what an instruction or a step leaves alone, what a halting
step leaves, and the invariant of the machine. -/

namespace Sys2Proof.Machine

/-- The program store of `t` is that of `s`, as data and byte by byte (20_memory.md R41). -/
def SameProgram (s t : State) : Prop :=
  t.prog = s.prog ∧ t.len = s.len ∧ ∀ k, t.byteAt k = s.byteAt k

/-- Every general register but the one the byte `d` names is as before (10_state.md R13). -/
def SameRegsExcept (d : Byte) (s t : State) : Prop :=
  ∀ j : Fin 32, j.val ≠ d.toNat → t.readReg j = s.readReg j

/-- What LOAD, ADD, SUB or MUL leaves alone when it completes with `pc` advanced by `n`: everything but `x[d]` and `pc`
(41_load.md R85, 42_arith.md R90). -/
def OnlyRegisterWritten (d : Byte) (n : Nat) (s t : State) : Prop :=
  SameRegsExcept d s t ∧ t.rem = s.rem ∧ t.pc = s.pc + n ∧ t.status = s.status ∧ t.notices = s.notices ∧ SameProgram s t

/-- What DIV leaves alone when it completes with `pc` advanced by `n`: everything but `x[d]`, `rem` and `pc` (43_div.md R100). -/
def OnlyRegisterAndRemWritten (d : Byte) (n : Nat) (s t : State) : Prop :=
  SameRegsExcept d s t ∧ t.pc = s.pc + n ∧ t.status = s.status ∧ t.notices = s.notices ∧ SameProgram s t

/-- A halt with a cause, a `pc` advance and the notices emitted: no general register, not `rem` and not the program is written
(60_exceptions.md R129, R130). -/
def HaltedWith (c : Cause) (n : Nat) (emitted : List Notice) (s t : State) : Prop :=
  t.status = .halted c ∧ t.pc = s.pc + n ∧ t.notices = s.notices ++ emitted ∧ t.x = s.x ∧ t.rem = s.rem ∧ SameProgram s t

/-- The four bytes of an instruction at `pc`, all of them inside the program. -/
def State.BytesAtPc (s : State) (b0 b1 b2 b3 : Byte) : Prop :=
  s.byteAt s.pc = some b0 ∧ s.byteAt (s.pc + 1) = some b1 ∧ s.byteAt (s.pc + 2) = some b2 ∧ s.byteAt (s.pc + 3) = some b3

/-- The operand values on which a DIV halts (43_div.md R102, R103), in Lean's own two's-complement reading. -/
abbrev FaultingOperands (opA opB : Word) : Prop := opB.toInt = 0 ∨ (opA.toInt = -2 ^ 31 ∧ opB.toInt = -1)

/-- The reset state of 40_step_decode.md R80, said register by register. -/
def State.IsResetState (s : State) : Prop :=
  s.status = .running ∧ s.pc = 0 ∧ (∀ i, s.readReg i = 0) ∧ s.rem = 0

/-- The unsigned reading of a 32-bit pattern that holds an integer (43_div.md R104). -/
def unsignedReading (r : Int) : Int := if 0 ≤ r then r else r + 2 ^ 32

/-- The notices of a run, by the status it has reached (40_step_decode.md R78). -/
def noticesOf : Status → List Notice
  | .halted .hlt => [.haltNotice]
  | .halted .illegalOpcode => [.illegalNotice]
  | _ => []

/-- Where `pc` stands for each value of `status`, and which byte of the program it stands behind (10_state.md R16, 20_memory.md R35,
and what 60_exceptions.md R120 says a host can derive after each cause). -/
def State.PcTellsStatus (s : State) : Prop :=
  match s.status with
  | .running => s.pc % 4 = 0
  | .halted .hlt => 1 ≤ s.pc ∧ (s.pc - 1) % 4 = 0 ∧ s.byteAt (s.pc - 1) = some 0
  | .halted .illegalOpcode => 1 ≤ s.pc ∧ (s.pc - 1) % 4 = 0 ∧ ∃ b, s.byteAt (s.pc - 1) = some b ∧ 6 ≤ b.toNat
  | .halted .exhausted => s.pc = s.len ∧ s.pc % 4 = 0
  | .halted .truncated => s.pc = s.len ∧ s.pc % 4 ≠ 0 ∧
      ∃ b, s.byteAt (s.pc - s.pc % 4) = some b ∧ 1 ≤ b.toNat ∧ b.toNat ≤ 5
  | .halted .arithmeticFault => 4 ≤ s.pc ∧ s.pc % 4 = 0 ∧ s.byteAt (s.pc - 4) = some 5
  | .halted .invalidRegister => 4 ≤ s.pc ∧ s.pc % 4 = 0 ∧
      ∃ b, s.byteAt (s.pc - 4) = some b ∧ 1 ≤ b.toNat ∧ b.toNat ≤ 5

/-- The invariant of the machine. -/
structure State.Inv (s : State) : Prop where
  /-- The program store is in its canonical form (log 2). -/
  canonical : s.prog.wf
  /-- No byte is listed at or above `len` (20_memory.md R33). -/
  insideProgram : ∀ c ∈ s.prog, c.1 < s.len
  /-- 10_state.md R17. -/
  pcInsideProgram : s.pc ≤ s.len
  /-- Where `pc` stands (R16, R35, R120). -/
  pcTellsStatus : s.PcTellsStatus
  /-- The output trace is the one the status calls for (R78, log 3). -/
  noticesTellStatus : s.notices = noticesOf s.status

end Sys2Proof.Machine
end

