-- ==== Sys2Proof/Certificates/Slice0/Obligations.lean ====
section
/-! DEFINITION. The statements about the machine. Nothing here is about a program. Where a clause is one of the spec's own decisions
(92_eei_decisions.md D<n>), the docstring names it; where it is a choice of this model, the docstring names the log entry. -/

open Sys2Proof Sys2Proof.Machine

/-! ### Reset and the host operations -/

/-- R24: every item of state has its reset value. -/
def Obligations.ResetGivesEveryItemItsResetValue : Prop :=
  (∀ i, State.reset.readReg i = 0) ∧ State.reset.pc = 0 ∧ State.reset.rem = 0 ∧ State.reset.len = 0 ∧
  (∀ k, State.reset.byteAt k = none) ∧ State.reset.status = .running ∧
  State.reset.status.haltedField = 0 ∧ State.reset.status.causeField = 0

/-- 70_reset_and_hazards.md section 1 (R150, decision D8): Reset can be applied in any state, cannot fail, and no state survives it.
That the output trace starts anew is the model's choice (log 3). -/
def Obligations.HostResetLeavesNothingOfTheOldState : Prop :=
  ∀ (cfg : Config) (s : State), ∃ t, hostOp cfg .reset s = .next ⟨t, none⟩ ∧ (∀ i, t.readReg i = 0) ∧ t.pc = 0 ∧ t.rem = 0 ∧
    t.len = 0 ∧ (∀ k, t.byteAt k = none) ∧ t.status = .running ∧ t.notices = []

/-- 70_reset_and_hazards.md R151, an inference the spec marks as its own: a step right after reset halts with EXHAUSTED. -/
def Obligations.StepRightAfterResetHaltsExhausted : Prop :=
  ∃ t, step State.reset = .next t ∧ HaltedWith .exhausted 0 [] State.reset t

/-- R80 (decision D8), with the effect R65 gives: LoadProgram stores the bytes and changes nothing else; the last load wins; outside
the reset state it is refused. -/
def Obligations.LoadProgramStoresTheBytesInTheResetStateOnly : Prop :=
  ∀ (cfg : Config) (bytes : List Byte) (s : State),
    (s.IsResetState → bytes.length ≤ 2 ^ cfg.pcw - 1 →
      ∃ t, hostOp cfg (.loadProgram bytes) s = .next ⟨t, none⟩ ∧ t.len = bytes.length ∧ (∀ k, t.byteAt k = bytes[k]?) ∧
        t.x = s.x ∧ t.pc = s.pc ∧ t.rem = s.rem ∧ t.status = s.status ∧ t.notices = s.notices ∧ t.IsResetState ∧
        ∀ later : List Byte, hostOp cfg (.loadProgram later) t = hostOp cfg (.loadProgram later) s) ∧
    (¬ s.IsResetState → hostOp cfg (.loadProgram bytes) s = .refused .loadOutsideResetState)

/-- That a program longer than R80 permits is refused is the model's choice (log 7). -/
def Obligations.OverlongProgramIsRefused : Prop :=
  ∀ (cfg : Config) (bytes : List Byte) (s : State), s.IsResetState → 2 ^ cfg.pcw - 1 < bytes.length →
    hostOp cfg (.loadProgram bytes) s = .refused .programTooLong

/-- R73, an inference the spec marks as its own: `done` is true exactly when the step ends HALTED, and false exactly when it completed
an instruction other than HLT. -/
def Obligations.DoneIsTrueExactlyWhenTheStepEndsHalted : Prop :=
  ∀ (cfg : Config) (s : State), ∃ t done, hostOp cfg .step s = .next ⟨t, some done⟩ ∧ step s = .next t ∧
    (done = true ↔ t.status ≠ .running) ∧
    (done = false ↔ s.status = .running ∧ ∃ i rest, decode s.remaining = .ok (i, rest) ∧ i.wellFormed = true ∧ i ≠ .hlt ∧
      ∀ a b d, i = .div a b d → ¬ FaultingOperands (s.readReg (regSelect a)) (s.readReg (regSelect b)))

/-- 40_step_decode.md section 5 (R74, R77 with decision D14, and R75, an inference the spec marks as its own): a Run is the steps up to
the first that reports `done`, at least one and at most `floor(len / 4) + 1`, from any state. That `run` is the loop bounded by that
number of turns in every state is the model's (log 8); this says that the bound is never what ends it. -/
def Obligations.RunIsTheStepsUpToTheFirstDone : Prop :=
  ∀ s : State, ∃ n t, 1 ≤ n ∧ n ≤ s.len / 4 + 1 ∧ run s = .next t ∧ t.status ≠ .running ∧
    Host.Core.run Sys2Proof.core n s = .next t ∧
    ∀ m, 1 ≤ m → m < n → ∃ u : State, Host.Core.run Sys2Proof.core m s = .next u ∧ u.status = .running

/-- 60_exceptions.md section 5 (R131, decision D8), with 40_step_decode.md section 1 (R80, decision D8) for the refusal of a load: no
sequence of operations without a Reset leaves HALTED or changes anything, the cause included; a load on the way is refused; a Reset
leaves HALTED and clears the whole state. That the Reset also empties the output trace is the model's choice (log 3). -/
def Obligations.OnlyResetLeavesHalted : Prop :=
  ∀ (cfg : Config) (ops : List HostOp) (s : State) (c : Cause), s.status = .halted c → HostOp.reset ∉ ops →
    ((∀ bytes, HostOp.loadProgram bytes ∉ ops) → hostOps cfg ops s = .next s) ∧
    ((∃ bytes, HostOp.loadProgram bytes ∈ ops) → hostOps cfg ops s = .refused .loadOutsideResetState) ∧
    hostOps cfg [.reset] s = .next State.reset

/-! ### Encoding -/

/-- R49, R55: the opcode byte alone selects the instruction, and the operand bytes are assigned by its format. -/
def Obligations.OpcodeByteSelectsTheInstruction : Prop :=
  ∀ (b0 o1 o2 o3 : Byte) (rest : List Byte), decode (b0 :: o1 :: o2 :: o3 :: rest) =
    if b0.toNat = 0 then .ok (.hlt, o1 :: o2 :: o3 :: rest)
    else if b0.toNat = 1 then .ok (.load o1 (BitVec.ofNat 16 (256 * o2.toNat + o3.toNat)), rest)
    else if b0.toNat = 2 then .ok (.add o1 o2 o3, rest)
    else if b0.toNat = 3 then .ok (.sub o1 o2 o3, rest)
    else if b0.toNat = 4 then .ok (.mul o1 o2 o3, rest)
    else if b0.toNat = 5 then .ok (.div o1 o2 o3, rest)
    else .error (.illegalOpcode b0)

/-- 30_encoding.md sections 1 and 2: words written out from the layouts decode to their instructions. -/
def Obligations.WordsWrittenOutFromTheLayoutsDecode : Prop :=
  decodeTableWord 8 0b00000000 = some .hlt ∧
  decodeTableWord 32 0b00000001_00000111_00000001_11110100 = some (.load 7 500) ∧
  decodeTableWord 32 0b00000010_00000000_00000001_00000010 = some (.add 0 1 2) ∧
  decodeTableWord 32 0b00000011_00011111_00000001_00000010 = some (.sub 31 1 2) ∧
  decodeTableWord 32 0b00000100_00000101_00000010_00000101 = some (.mul 5 2 5) ∧
  decodeTableWord 32 0b00000101_00000101_00000100_00000110 = some (.div 5 4 6) ∧
  decodeTableWord 32 0b00000110_00000000_00000000_00000000 = none

/-- 30_encoding.md sections 1 to 5: decoding an encoded instruction gives it back, every operand at every value of its field. -/
def Obligations.DecodeOfEncodeIsTheInstruction : Prop :=
  ∀ (i : Instr) (rest : List Byte), decode (encode i ++ rest) = .ok (i, rest)

/-- 30_encoding.md sections 1 to 5: the bytes a decoded instruction took are the bytes it encodes to. -/
def Obligations.EncodeOfDecodeIsTheBytes : Prop :=
  ∀ (bytes rest : List Byte) (i : Instr), decode bytes = .ok (i, rest) → bytes = encode i ++ rest

/-- 30_encoding.md section 4 (R53 is an inference the spec marks as its own): what the decoder rejects, and under which name. -/
def Obligations.DecoderRejectsExactlyTheBytesThatAreNoInstruction : Prop :=
  ∀ bytes : List Byte,
    (decode bytes = .error .noOpcode ↔ bytes = []) ∧
    (∀ b, decode bytes = .error (.illegalOpcode b) ↔ 6 ≤ b.toNat ∧ ∃ rest, bytes = b :: rest) ∧
    (decode bytes = .error .truncated ↔
      ∃ b rest, bytes = b :: rest ∧ 1 ≤ b.toNat ∧ b.toNat ≤ 5 ∧ rest.length < 3)

/-- 30_encoding.md R56, an inference the spec marks as its own: the table view of an instruction's bytes decodes to it. -/
def Obligations.TableWordOfAnInstructionDecodesToIt : Prop :=
  ∀ i : Instr, decodeTableWord (8 * (encode i).length) (tableWord i) = some i

/-- The model's own (log 5, log 6): with an instruction's table word stored where the machine fetches, the next step runs exactly that
instruction, `pc` being past it. -/
def Obligations.StepAfterStoringATableWordRunsIt : Prop :=
  ∀ (s : State) (i : Instr), s.prog.wf →
    step (s.withFetchWord (8 * (encode i).length) (tableWord i)) =
      exec i ((s.withFetchWord (8 * (encode i).length) (tableWord i)).setPc (s.pc + (encode i).length))

/-! ### The step -/

/-- 40_step_decode.md section 2 (R66): a step runs the instruction that the bytes at `pc` decode to, legal or not, with `pc` already
past its bytes. -/
def Obligations.StepRunsTheDecodedInstruction : Prop :=
  ∀ (s : State) (i : Instr) (rest : List Byte), s.status = .running → decode s.remaining = .ok (i, rest) →
    step s = exec i (s.setPc (s.pc + (encode i).length))

/-- 40_step_decode.md section 5 (R74): a step always answers a next state: no fault and no refusal. -/
def Obligations.StepAlwaysAnswersANextState : Prop := ∀ s : State, ∃ t, step s = .next t

/-- R67: opcode fetch. At or past the end nothing is read, `pc` stays and the step halts with EXHAUSTED and no notice; otherwise the
byte at `pc` is read and `pc` advances by 1 before the opcode is examined. -/
def Obligations.OpcodeFetchIsGuarded : Prop :=
  ∀ s : State, s.status = .running →
    (s.len ≤ s.pc → fetch s = none ∧ ∃ t, step s = .next t ∧ HaltedWith .exhausted 0 [] s t) ∧
    (s.pc < s.len → ∃ b, s.byteAt s.pc = some b ∧ fetch s = some (b, s.setPc (s.pc + 1)) ∧
      ∃ t, step s = .next t ∧ s.pc + 1 ≤ t.pc)

/-- R68, R54 (decision D6): operand fetch. With fewer than three bytes after an opcode 1 to 5 the step halts with TRUNCATED, the bytes
that exist consumed, nothing written, whatever the opcode and whatever the bytes; with three bytes there all are consumed. -/
def Obligations.TruncatedInstructionHaltsWithItsBytesConsumed : Prop :=
  ∀ (s : State) (b : Byte), s.status = .running → s.byteAt s.pc = some b → 1 ≤ b.toNat → b.toNat ≤ 5 →
    (s.len < s.pc + 4 →
      ∃ t, step s = .next t ∧ HaltedWith .truncated (s.len - s.pc) [] s t ∧ t.pc = t.len) ∧
    (s.pc + 4 ≤ s.len → ∃ t, step s = .next t ∧ t.status ≠ .halted .truncated ∧ t.pc = s.pc + 4)

/-- 44_halt.md (R111) and 30_encoding.md section 4 (R52): every opcode byte from 6 to 255 emits the notice and halts, one byte
consumed. That the byte stays readable at `pc - 1` is an inference the spec marks as its own (in R111, from R67). -/
def Obligations.IllegalOpcodeHaltsWithNotice : Prop :=
  ∀ (s : State) (b : Byte), s.status = .running → s.byteAt s.pc = some b → 6 ≤ b.toNat →
    ∃ t, step s = .next t ∧ HaltedWith .illegalOpcode 1 [.illegalNotice] s t ∧ t.byteAt (t.pc - 1) = some b

/-- R110, R46: a step whose opcode byte is 0 emits the notice and halts with cause HLT, one byte consumed, whatever follows it. -/
def Obligations.HltStepHaltsWithNotice : Prop :=
  ∀ s : State, s.status = .running → s.byteAt s.pc = some 0 →
    ∃ t, step s = .next t ∧ HaltedWith .hlt 1 [.haltNotice] s t

/-- R69, R51 (decision D5): with all bytes present, a register index of 32 or more halts the step with INVALID_REGISTER, nothing
written and all four bytes consumed; a format I immediate is never an index, and a DIV halts so even on a zero divisor. A truncated
instruction is TRUNCATED even if a byte that is present is 32 or more. -/
def Obligations.RegisterIndexOutOfRangeHaltsTheStep : Prop :=
  (∀ (s : State) (b0 : Byte), s.status = .running → s.byteAt s.pc = some b0 → 1 ≤ b0.toNat → b0.toNat ≤ 5 → s.len < s.pc + 4 →
    ∃ t, step s = .next t ∧ t.status = .halted .truncated) ∧
  ∀ (s : State) (b0 o1 o2 o3 : Byte), s.status = .running → s.BytesAtPc b0 o1 o2 o3 → 1 ≤ b0.toNat → b0.toNat ≤ 5 →
    ((32 ≤ o1.toNat ∨ (b0 ≠ 1 ∧ (32 ≤ o2.toNat ∨ 32 ≤ o3.toNat))) →
      ∃ t, step s = .next t ∧ HaltedWith .invalidRegister 4 [] s t) ∧
    (¬ (32 ≤ o1.toNat ∨ (b0 ≠ 1 ∧ (32 ≤ o2.toNat ∨ 32 ≤ o3.toNat))) →
      ∃ t, step s = .next t ∧ t.status ≠ .halted .invalidRegister)

/-- R16: `pc` moves by the fetches alone: the net advance of a step for each way it ends. -/
def Obligations.NetAdvanceOfPcByOutcome : Prop :=
  ∀ s : State, ∃ t, step s = .next t ∧
    (s.status ≠ .running → t.pc = s.pc) ∧
    (s.status = .running → match t.status with
      | .running => t.pc = s.pc + 4
      | .halted .hlt => t.pc = s.pc + 1
      | .halted .illegalOpcode => t.pc = s.pc + 1
      | .halted .exhausted => t.pc = s.pc ∧ s.len ≤ s.pc
      | .halted .truncated => s.pc + 1 ≤ t.pc ∧ t.pc ≤ s.pc + 3 ∧ t.pc = t.len
      | .halted .arithmeticFault => t.pc = s.pc + 4
      | .halted .invalidRegister => t.pc = s.pc + 4)

/-- R128 (decision D12): the one cause a step raises is the first that applies, in the fixed order. -/
def Obligations.CausesAreFoundInTheFixedOrder : Prop :=
  (∀ (s : State) (c : Cause), s.status = .halted c → ∃ t, step s = .next t ∧ t.status = .halted c) ∧
  ∀ s : State, s.status = .running → ∃ t, step s = .next t ∧ t.status =
    if s.len ≤ s.pc then .halted .exhausted
    else if (s.prog.read s.pc).toNat = 0 then .halted .hlt
    else if 6 ≤ (s.prog.read s.pc).toNat then .halted .illegalOpcode
    else if s.len < s.pc + 4 then .halted .truncated
    else if 32 ≤ (s.prog.read (s.pc + 1)).toNat ∨ ((s.prog.read s.pc).toNat ≠ 1 ∧
      (32 ≤ (s.prog.read (s.pc + 2)).toNat ∨ 32 ≤ (s.prog.read (s.pc + 3)).toNat)) then .halted .invalidRegister
    else if (s.prog.read s.pc).toNat = 5 ∧ FaultingOperands (s.readReg (regSelect (s.prog.read (s.pc + 1))))
      (s.readReg (regSelect (s.prog.read (s.pc + 2)))) then .halted .arithmeticFault
    else .running

/-- R76 (decision D7): a Step requested while HALTED changes no state, emits nothing and reports `done = true`. -/
def Obligations.StepWhileHaltedChangesNothing : Prop :=
  ∀ (cfg : Config) (s : State) (c : Cause), s.status = .halted c →
    step s = .next s ∧ hostOp cfg .step s = .next ⟨s, some true⟩

/-- R78 (decision D13): HLT and an illegal opcode emit their notice and no other step emits anything. -/
def Obligations.NoticesAreEmittedByHltAndIllegalOpcodeOnly : Prop :=
  ∀ s : State, ∃ t, step s = .next t ∧ t.notices = s.notices ++
    (if s.status = .running ∧ s.pc < s.len ∧ (s.prog.read s.pc).toNat = 0 then [Notice.haltNotice]
     else if s.status = .running ∧ s.pc < s.len ∧ 6 ≤ (s.prog.read s.pc).toNat then [Notice.illegalNotice] else [])

/-- 60_exceptions.md section 4 (R130 is an inference the spec marks as its own): halts are precise. -/
def Obligations.AHaltingStepWritesNoRegisterNoRemNoProgram : Prop :=
  ∀ s : State, ∃ t, step s = .next t ∧ (t.status ≠ .running → t.x = s.x ∧ t.rem = s.rem ∧ SameProgram s t)

/-- 60_exceptions.md section 4 (R129, decision D7): `halt(cause)` sets the status, with the code of the cause, and saves and changes
nothing else. -/
def Obligations.HaltSetsTheStatusAndNothingElse : Prop :=
  ∀ (s : State) (c : Cause), (s.halt c).status = .halted c ∧ (s.halt c).status.haltedField = 1 ∧
    (s.halt c).status.causeField = c.code ∧ HaltedWith c 0 [] s (s.halt c)

/-- 60_exceptions.md section 1 and 10_state.md section 4 (R120, R19, decision D20): the codes of the status register: each cause
has its code of the table, the `cause` field of a HALTED status is the code of its cause and its `halted` field is 1, both fields are 0
exactly when RUNNING, 7 is never the `cause` field, and the `cause` field tells the status. -/
def Obligations.StatusFieldsHaveTheCodesOfTheTable : Prop :=
  Cause.hlt.code = 1 ∧ Cause.illegalOpcode.code = 2 ∧ Cause.exhausted.code = 3 ∧ Cause.truncated.code = 4 ∧
  Cause.arithmeticFault.code = 5 ∧ Cause.invalidRegister.code = 6 ∧
  (∀ c : Cause, (Status.halted c).causeField = c.code ∧ (Status.halted c).haltedField = 1) ∧
  ∀ st : Status, (st.haltedField = 0 ↔ st = .running) ∧ (st.causeField = 0 ↔ st = .running) ∧ st.causeField ≠ 7 ∧
    ∀ st' : Status, st.causeField = st'.causeField → st = st'

/-! ### The instructions: result, completion and frame -/

/-- R110: HLT completes in every state: the notice, and the halt with cause HLT. -/
def Obligations.HltCompletesByHalting : Prop :=
  ∀ s : State, ∃ t, exec .hlt s = .next t ∧ HaltedWith .hlt 0 [.haltNotice] s t

/-- R50, with the instruction that uses it: LOAD completes for every legal destination and every immediate; the immediate is
big-endian and zero-extended. -/
def Obligations.LoadCompletesWithTheZeroExtendedImmediate : Prop :=
  ∀ (d hi lo : Byte) (s : State) (hd : d.toNat < 32), ∃ t, exec (.load d (joinImm hi lo)) s = .next t ∧
    OnlyRegisterWritten d 0 s t ∧ (t.readReg ⟨d.toNat, hd⟩).toNat = 256 * hi.toNat + lo.toNat ∧
    (t.readReg ⟨d.toNat, hd⟩).extractLsb' 16 16 = 0 ∧ 0 ≤ (t.readReg ⟨d.toNat, hd⟩).toInt

/-- 42_arith.md section 2, ADD: completes for all legal indices and all operand values. -/
def Obligations.AddCompletesWithTheWrappedSum : Prop :=
  ∀ (a b d : Byte) (s : State) (ha : a.toNat < 32) (hb : b.toNat < 32) (hd : d.toNat < 32), ∃ t,
    exec (.add a b d) s = .next t ∧ OnlyRegisterWritten d 0 s t ∧ ((t.readReg ⟨d.toNat, hd⟩).toNat : Int) =
      ((s.readReg ⟨a.toNat, ha⟩).toInt + (s.readReg ⟨b.toNat, hb⟩).toInt) % 2 ^ 32

/-- 42_arith.md section 2, SUB: first source minus second source; completes for all legal indices and all operand values. -/
def Obligations.SubCompletesWithTheWrappedDifference : Prop :=
  ∀ (a b d : Byte) (s : State) (ha : a.toNat < 32) (hb : b.toNat < 32) (hd : d.toNat < 32), ∃ t,
    exec (.sub a b d) s = .next t ∧ OnlyRegisterWritten d 0 s t ∧ ((t.readReg ⟨d.toNat, hd⟩).toNat : Int) =
      ((s.readReg ⟨a.toNat, ha⟩).toInt - (s.readReg ⟨b.toNat, hb⟩).toInt) % 2 ^ 32

/-- 42_arith.md section 2, MUL: the low 32 bits of the product; completes for all legal indices and all operand values. -/
def Obligations.MulCompletesWithTheWrappedProduct : Prop :=
  ∀ (a b d : Byte) (s : State) (ha : a.toNat < 32) (hb : b.toNat < 32) (hd : d.toNat < 32), ∃ t,
    exec (.mul a b d) s = .next t ∧ OnlyRegisterWritten d 0 s t ∧ ((t.readReg ⟨d.toNat, hd⟩).toNat : Int) =
      ((s.readReg ⟨a.toNat, ha⟩).toInt * (s.readReg ⟨b.toNat, hb⟩).toInt) % 2 ^ 32

/-- 43_div.md (rounding is decision D4): DIV completes for all legal indices and all operand values but the faulting ones, with the
quotient and the remainder of the old operand values. -/
def Obligations.DivCompletesWithQuotientAndRemainder : Prop :=
  ∀ (a b d : Byte) (s : State) (ha : a.toNat < 32) (hb : b.toNat < 32) (hd : d.toNat < 32),
    ¬ FaultingOperands (s.readReg ⟨a.toNat, ha⟩) (s.readReg ⟨b.toNat, hb⟩) → ∃ t,
    exec (.div a b d) s = .next t ∧ OnlyRegisterAndRemWritten d 0 s t ∧
    (t.readReg ⟨d.toNat, hd⟩).toInt = (s.readReg ⟨a.toNat, ha⟩).toInt.tdiv (s.readReg ⟨b.toNat, hb⟩).toInt ∧
    t.rem.toInt = (s.readReg ⟨a.toNat, ha⟩).toInt - (s.readReg ⟨b.toNat, hb⟩).toInt * (t.readReg ⟨d.toNat, hd⟩).toInt

/-- 43_div.md (decisions D2, D3): DIV halts with ARITHMETIC_FAULT on a zero divisor and on −2^31 / −1, nothing written. -/
def Obligations.DivHaltsOnFaultingOperands : Prop :=
  ∀ (a b d : Byte) (s : State) (ha : a.toNat < 32) (hb : b.toNat < 32), d.toNat < 32 →
    FaultingOperands (s.readReg ⟨a.toNat, ha⟩) (s.readReg ⟨b.toNat, hb⟩) → ∃ t,
    exec (.div a b d) s = .next t ∧ HaltedWith .arithmeticFault 0 [] s t

/-- 40_step_decode.md section 3 (decision D5): every instruction with an index that names no register halts with INVALID_REGISTER,
nothing written, whatever its operand values; no other instruction does. -/
def Obligations.InstructionWithAnIllegalIndexHalts : Prop :=
  ∀ (i : Instr) (s : State), s.status = .running → ∃ t, exec i s = .next t ∧
    (i.wellFormed = false → HaltedWith .invalidRegister 0 [] s t) ∧
    (i.wellFormed = true → t.status ≠ .halted .invalidRegister)

/-- R85: LOAD as a whole step: encoding, result, what it leaves alone, and its two halts. -/
def Obligations.LoadStepLaw : Prop :=
  ∀ s : State, s.status = .running → s.byteAt s.pc = some 1 →
    (s.len < s.pc + 4 → ∃ t, step s = .next t ∧ HaltedWith .truncated (s.len - s.pc) [] s t) ∧
    ∀ d hi lo : Byte, s.BytesAtPc 1 d hi lo →
      (32 ≤ d.toNat → ∃ t, step s = .next t ∧ HaltedWith .invalidRegister 4 [] s t) ∧
      ∀ hd : d.toNat < 32, ∃ t, step s = .next t ∧ OnlyRegisterWritten d 4 s t ∧
        (t.readReg ⟨d.toNat, hd⟩).toNat = 256 * hi.toNat + lo.toNat

/-- R90, R91, R92, R93 (the wrap is decision D1): ADD, SUB and MUL as whole steps: encoding, result, what they leave alone, and their
two halts. -/
def Obligations.ArithmeticStepLaw : Prop :=
  ∀ (s : State) (b0 : Byte), s.status = .running → s.byteAt s.pc = some b0 → b0 = 2 ∨ b0 = 3 ∨ b0 = 4 →
    (s.len < s.pc + 4 → ∃ t, step s = .next t ∧ HaltedWith .truncated (s.len - s.pc) [] s t) ∧
    ∀ a b d : Byte, s.BytesAtPc b0 a b d →
      (32 ≤ a.toNat ∨ 32 ≤ b.toNat ∨ 32 ≤ d.toNat → ∃ t, step s = .next t ∧ HaltedWith .invalidRegister 4 [] s t) ∧
      ∀ (ha : a.toNat < 32) (hb : b.toNat < 32) (hd : d.toNat < 32), ∃ t, step s = .next t ∧ OnlyRegisterWritten d 4 s t ∧
        ((t.readReg ⟨d.toNat, hd⟩).toNat : Int) =
          (if b0 = 2 then (s.readReg ⟨a.toNat, ha⟩).toInt + (s.readReg ⟨b.toNat, hb⟩).toInt
           else if b0 = 3 then (s.readReg ⟨a.toNat, ha⟩).toInt - (s.readReg ⟨b.toNat, hb⟩).toInt
           else (s.readReg ⟨a.toNat, ha⟩).toInt * (s.readReg ⟨b.toNat, hb⟩).toInt) % 2 ^ 32

/-- R94 (decision D1): the overflow law: nothing traps or saturates, and the result is the low 32 bits of the exact one, the same
whether the operands are read as signed or as unsigned. -/
def Obligations.OverflowWrapsWhicheverWayTheOperandsAreRead : Prop :=
  ∀ (a b d : Byte) (s : State) (ha : a.toNat < 32) (hb : b.toNat < 32) (hd : d.toNat < 32),
    (∃ t, exec (.add a b d) s = .next t ∧ t.status = s.status ∧
      t.readReg ⟨d.toNat, hd⟩ = BitVec.ofInt 32 ((s.readReg ⟨a.toNat, ha⟩).toInt + (s.readReg ⟨b.toNat, hb⟩).toInt) ∧
      t.readReg ⟨d.toNat, hd⟩ = BitVec.ofInt 32 ((s.readReg ⟨a.toNat, ha⟩).toNat + (s.readReg ⟨b.toNat, hb⟩).toNat)) ∧
    (∃ t, exec (.sub a b d) s = .next t ∧ t.status = s.status ∧
      t.readReg ⟨d.toNat, hd⟩ = BitVec.ofInt 32 ((s.readReg ⟨a.toNat, ha⟩).toInt - (s.readReg ⟨b.toNat, hb⟩).toInt) ∧
      t.readReg ⟨d.toNat, hd⟩ = BitVec.ofInt 32 ((s.readReg ⟨a.toNat, ha⟩).toNat - (s.readReg ⟨b.toNat, hb⟩).toNat)) ∧
    ∃ t, exec (.mul a b d) s = .next t ∧ t.status = s.status ∧
      t.readReg ⟨d.toNat, hd⟩ = BitVec.ofInt 32 ((s.readReg ⟨a.toNat, ha⟩).toInt * (s.readReg ⟨b.toNat, hb⟩).toInt) ∧
      t.readReg ⟨d.toNat, hd⟩ = BitVec.ofInt 32 ((s.readReg ⟨a.toNat, ha⟩).toNat * (s.readReg ⟨b.toNat, hb⟩).toNat)

/-- R100 to R104 (decisions D2, D3, D4): DIV as a whole step: encoding, its three halts, the rounding law with its consequences, and
the unsigned reading of `rem`. -/
def Obligations.DivStepLaw : Prop :=
  ∀ s : State, s.status = .running → s.byteAt s.pc = some 5 →
    (s.len < s.pc + 4 → ∃ t, step s = .next t ∧ HaltedWith .truncated (s.len - s.pc) [] s t) ∧
    ∀ a b d : Byte, s.BytesAtPc 5 a b d →
      (32 ≤ a.toNat ∨ 32 ≤ b.toNat ∨ 32 ≤ d.toNat → ∃ t, step s = .next t ∧ HaltedWith .invalidRegister 4 [] s t) ∧
      ∀ (ha : a.toNat < 32) (hb : b.toNat < 32) (hd : d.toNat < 32) (n m : Int),
        n = (s.readReg ⟨a.toNat, ha⟩).toInt → m = (s.readReg ⟨b.toNat, hb⟩).toInt →
        (m = 0 → ∃ t, step s = .next t ∧ HaltedWith .arithmeticFault 4 [] s t) ∧
        (n = -2 ^ 31 → m = -1 → ∃ t, step s = .next t ∧ HaltedWith .arithmeticFault 4 [] s t) ∧
        (m ≠ 0 → ¬ (n = -2 ^ 31 ∧ m = -1) → ∃ t q r, step s = .next t ∧ OnlyRegisterAndRemWritten d 4 s t ∧
          (t.readReg ⟨d.toNat, hd⟩).toInt = q ∧ t.rem.toInt = r ∧ (t.rem.toNat : Int) = unsignedReading r ∧
          q = n.tdiv m ∧ n = m * q + r ∧ r.natAbs < m.natAbs ∧ (r = 0 ∨ r.sign = n.sign))

/-- R105 (decision D15): aliasing in DIV: with the destination one of the sources both results come from the old values; a register
divided by itself gives 1 and 0, or the fault if it is zero. -/
def Obligations.DivAliasingUsesTheOldValues : Prop :=
  ∀ (a b d : Byte) (s : State) (ha : a.toNat < 32) (hb : b.toNat < 32) (hd : d.toNat < 32),
    (d = a ∨ d = b → ¬ FaultingOperands (s.readReg ⟨a.toNat, ha⟩) (s.readReg ⟨b.toNat, hb⟩) →
      ∃ t, exec (.div a b d) s = .next t ∧
        (t.readReg ⟨d.toNat, hd⟩).toInt = (s.readReg ⟨a.toNat, ha⟩).toInt.tdiv (s.readReg ⟨b.toNat, hb⟩).toInt ∧
        t.rem.toInt = (s.readReg ⟨a.toNat, ha⟩).toInt.tmod (s.readReg ⟨b.toNat, hb⟩).toInt) ∧
    (s.readReg ⟨a.toNat, ha⟩ ≠ 0 → ∃ t, exec (.div a a d) s = .next t ∧ t.readReg ⟨d.toNat, hd⟩ = 1 ∧ t.rem = 0) ∧
    (s.readReg ⟨a.toNat, ha⟩ = 0 → ∃ t, exec (.div a a d) s = .next t ∧ HaltedWith .arithmeticFault 0 [] s t)

/-- 10_state.md section 2 (R13): the frame of LOAD, ADD, SUB and MUL for every operand value, legal or not. -/
def Obligations.FrameOfLoadAddSubMul : Prop :=
  ∀ (i : Instr) (a b d : Byte) (imm : Imm16) (s : State),
    i = .load d imm ∨ i = .add a b d ∨ i = .sub a b d ∨ i = .mul a b d →
    ∃ t, exec i s = .next t ∧ SameRegsExcept d s t ∧ t.rem = s.rem ∧ t.pc = s.pc ∧ t.notices = s.notices ∧ SameProgram s t ∧
      (t.status = s.status ∨ (t.status = .halted .invalidRegister ∧ t.x = s.x))

/-- 43_div.md and 10_state.md section 2 (R13): the frame of DIV for every operand value, legal or not. -/
def Obligations.FrameOfDiv : Prop :=
  ∀ (a b d : Byte) (s : State), ∃ t, exec (.div a b d) s = .next t ∧ SameRegsExcept d s t ∧ t.pc = s.pc ∧
    t.notices = s.notices ∧ SameProgram s t ∧
    (t.status = s.status ∨ ((t.status = .halted .invalidRegister ∨ t.status = .halted .arithmeticFault) ∧
      t.x = s.x ∧ t.rem = s.rem))

/-- 10_state.md section 2 (R13): LOAD reads no general register, and ADD, SUB, MUL and DIV read none but their two sources: with the
others changed, the same registers get the same values. -/
def Obligations.InstructionsReadNoRegisterButTheirSources : Prop :=
  ∀ (i : Instr) (a b d : Byte) (imm : Imm16) (s : State) (regs : Vector Word 32), s.status = .running → d.toNat < 32 →
    (i = .load d imm ∨ ((i = .add a b d ∨ i = .sub a b d ∨ i = .mul a b d ∨ i = .div a b d) ∧
      regs[regSelect a] = s.readReg (regSelect a) ∧ regs[regSelect b] = s.readReg (regSelect b))) →
    ∃ t u, exec i s = .next t ∧ exec i { s with x := regs } = .next u ∧ u.status = t.status ∧ u.rem = t.rem ∧
      (t.status = .running → u.readReg (regSelect d) = t.readReg (regSelect d))

/-! ### Whole-machine rules -/

/-- 10_state.md section 4 (R18): only a DIV that completes writes `rem`. -/
def Obligations.OnlyACompletingDivWritesRem : Prop :=
  ∀ s : State, ∃ t, step s = .next t ∧
    (t.rem ≠ s.rem → s.status = .running ∧ s.byteAt s.pc = some 5 ∧ s.pc + 4 ≤ s.len ∧ t.status = .running)

/-- 10_state.md section 4 (R18): no instruction reads `rem`. -/
def Obligations.NoStepReadsRem : Prop :=
  ∀ (s : State) (w : Word), ∃ t, step s = .next t ∧
    ((t.rem = s.rem ∧ step { s with rem := w } = .next { t with rem := w }) ∨ step { s with rem := w } = .next t)

/-- 10_state.md section 5 (R20, and R41 with decision D21): no step writes the program or its length. -/
def Obligations.NoStepWritesTheProgram : Prop :=
  ∀ s : State, ∃ t, step s = .next t ∧ SameProgram s t

/-- 20_memory.md section 2 (R33 is an inference the spec marks as its own): no step depends on what lies at or above `len`. -/
def Obligations.NoStepReadsAtOrAboveTheEnd : Prop :=
  ∀ (s : State) (m : Memory), (∀ k, k < s.len → m.read k = s.prog.read k) →
    ∃ t, step s = .next t ∧ step { s with prog := m } = .next { t with prog := m }

/-- 40_step_decode.md section 5 (R78): no rule reads the notices: the trace is only appended to. -/
def Obligations.NoStepReadsTheNotices : Prop :=
  ∀ (s : State) (l : List Notice), ∃ t emitted, step s = .next t ∧ t.notices = s.notices ++ emitted ∧
    step { s with notices := l } = .next { t with notices := l ++ emitted }

/-- 10_state.md section 3 (R17 is an inference the spec marks as its own; decision D9): `pc` stays inside the program and fits `PCW`
bits, so that taking it as a natural number (log 1) loses nothing. -/
def Obligations.ThePcNeverWraps : Prop :=
  ∀ (cfg : Config) (s : State), s.len ≤ cfg.maxLen → s.pc ≤ s.len →
    ∃ t, step s = .next t ∧ s.pc ≤ t.pc ∧ t.pc ≤ t.len ∧ t.len ≤ cfg.maxLen ∧ (t.pcBits cfg).toNat = t.pc

/-- The invariant holds after reset. -/
def Obligations.TheInvariantHoldsAtReset : Prop := State.reset.Inv

/-- Every step keeps the invariant: the program store stays canonical and below `len`, `pc` stays inside the program and at a multiple
of 4 while RUNNING, each cause leaves `pc` where 60_exceptions.md section 1 says, and the trace is the one the status calls for. -/
def Obligations.EveryStepKeepsTheInvariant : Prop :=
  ∀ s : State, s.Inv → ∃ t, step s = .next t ∧ t.Inv

/-- Every host operation that is not refused keeps the invariant. -/
def Obligations.EveryHostOperationKeepsTheInvariant : Prop :=
  ∀ (cfg : Config) (op : HostOp) (s : State), s.Inv →
    (∃ r, hostOp cfg op s = .next r ∧ r.state.Inv) ∨
    (∃ bytes, op = .loadProgram bytes ∧
      (hostOp cfg op s = .refused .loadOutsideResetState ∨ hostOp cfg op s = .refused .programTooLong))

/-- 40_step_decode.md section 5 (R78): in every state that host operations reach from reset the invariant holds, and the trace of
notices has length 0 or 1. Across a Reset the length rests on the model's choice that a Reset starts the trace anew (log 3). -/
def Obligations.ReachableStatesMeetTheInvariantWithAtMostOneNotice : Prop :=
  ∀ (cfg : Config) (ops : List HostOp) (s : State), hostOps cfg ops State.reset = .next s →
    s.Inv ∧ s.notices.length ≤ 1
end

