-- ==== Sys2Proof/Laws/Decode.lean ====
section
/-! SUPPORT. One spec lemma per function of the decoder and encoder. -/

namespace Sys2Proof

/-- R34, R50: the immediate as a number, high byte first. -/
theorem joinImm_toNat (hi lo : Byte) : (joinImm hi lo).toNat = 256 * hi.toNat + lo.toNat := by
  have := lo.isLt
  simp only [joinImm, BitVec.toNat_append, Nat.shiftLeft_eq]
  rw [← Nat.shiftLeft_eq, ← Nat.shiftLeft_add_eq_or_of_lt this, Nat.shiftLeft_eq]
  omega

/-- The encoder's two immediate bytes make the immediate again. -/
theorem joinImm_split (imm : Imm16) : joinImm (imm.extractLsb' 8 8) (imm.extractLsb' 0 8) = imm := by
  apply BitVec.eq_of_toNat_eq
  have := imm.isLt
  simp only [joinImm_toNat, BitVec.extractLsb'_toNat, Nat.shiftRight_eq_div_pow]
  omega

theorem decodeOpcode_hlt (b : Byte) : decodeOpcode b = .hlt ↔ b = 0 := by revert b; decide
theorem decodeOpcode_load (b : Byte) : decodeOpcode b = .load ↔ b = 1 := by revert b; decide
theorem decodeOpcode_add (b : Byte) : decodeOpcode b = .add ↔ b = 2 := by revert b; decide
theorem decodeOpcode_sub (b : Byte) : decodeOpcode b = .sub ↔ b = 3 := by revert b; decide
theorem decodeOpcode_mul (b : Byte) : decodeOpcode b = .mul ↔ b = 4 := by revert b; decide
theorem decodeOpcode_div (b : Byte) : decodeOpcode b = .div ↔ b = 5 := by revert b; decide
theorem decodeOpcode_illegal (b : Byte) : decodeOpcode b = .illegal ↔ 6 ≤ b.toNat := by revert b; decide

/-- R45: an instruction is as long as its opcode byte says. -/
theorem encode_length (i : Instr) : (encode i).length = if i = .hlt then 1 else 4 := by cases i <;> rfl

end Sys2Proof
end

