-- ==== Sys2Proof/Laws/Memory.lean ====
section
/-! SUPPORT. The laws of the program store: a read after a write, and the canonical form kept by every operation. -/

namespace Sys2Proof.Machine

theorem Memory.read_of_lt_head (m : Memory) (k : Nat) (h : ∀ c ∈ m, k < c.1) : m.read k = Memory.unlisted := by
  induction m with
  | nil => rfl
  | cons p rest ih =>
    have hp : k < p.1 := h p (by simp)
    have hr : ∀ c ∈ rest, k < c.1 := fun c hc => h c (by simp [hc])
    simp [Memory.read, Nat.ne_of_gt hp, ih hr]

/-- A byte read back after it was written is the byte written. -/
theorem Memory.read_write_same (m : Memory) (hw : m.wf) (k : Nat) (b : Byte) : (m.write k b).read k = b := by
  induction m with
  | nil => by_cases hb : b = Memory.unlisted <;> simp [Memory.write, Memory.read, hb]
  | cons p rest ih =>
    obtain ⟨c, v⟩ := p
    have hrest : Memory.wf rest := ⟨(List.pairwise_cons.1 hw.1).2, fun x hx => hw.2 x (by simp [hx])⟩
    have hlt : ∀ x ∈ rest, c < x.1 := (List.pairwise_cons.1 hw.1).1
    unfold Memory.write
    split
    · rename_i hk
      split
      · rename_i hb
        rw [hb]
        exact Memory.read_of_lt_head _ _ (by
          intro x hx
          rcases List.mem_cons.1 hx with rfl | hx
          · exact hk
          · exact Nat.lt_trans hk (hlt x hx))
      · simp [Memory.read]
    · split
      · rename_i hk
        split
        · rename_i hb
          rw [hb, hk]
          exact Memory.read_of_lt_head _ _ hlt
        · simp [Memory.read]
      · rename_i hk
        simp [Memory.read, Ne.symm hk, ih hrest]

/-- A write leaves every other byte alone. -/
theorem Memory.read_write_other (m : Memory) (k j : Nat) (b : Byte) (h : j ≠ k) :
    (m.write k b).read j = m.read j := by
  induction m with
  | nil => by_cases hb : b = Memory.unlisted <;> simp [Memory.write, Memory.read, hb, Ne.symm h]
  | cons p rest ih =>
    obtain ⟨c, v⟩ := p
    unfold Memory.write
    split
    · split
      · rfl
      · simp [Memory.read, Ne.symm h]
    · split
      · rename_i hk
        subst hk
        split <;> simp [Memory.read, Ne.symm h]
      · simp [Memory.read, ih]

/-- An index named after a write was named before it or is the one written. -/
theorem Memory.mem_write (m : Memory) (k : Nat) (b : Byte) (c : Host.Cell) (hc : c ∈ m.write k b) :
    c ∈ m ∨ (c = (k, b) ∧ b ≠ Memory.unlisted) := by
  induction m with
  | nil =>
    by_cases hb : b = Memory.unlisted <;> simp [Memory.write, hb] at hc
    exact .inr ⟨hc, hb⟩
  | cons p rest ih =>
    unfold Memory.write at hc
    split at hc
    · split at hc
      · exact .inl hc
      · rename_i hb
        rcases List.mem_cons.1 hc with h | h
        · exact .inr ⟨h, hb⟩
        · exact .inl h
    · split at hc
      · split at hc
        · exact .inl (by simp [hc])
        · rename_i hb
          rcases List.mem_cons.1 hc with h | h
          · exact .inr ⟨h, hb⟩
          · exact .inl (by simp [h])
      · rcases List.mem_cons.1 hc with h | h
        · exact .inl (by simp [h])
        · rcases ih h with h | h
          · exact .inl (by simp [h])
          · exact .inr h

/-- A write keeps the canonical form. -/
theorem Memory.write_wf (m : Memory) (hw : m.wf) (k : Nat) (b : Byte) : (m.write k b).wf := by
  induction m with
  | nil =>
    by_cases hb : b = Memory.unlisted
    · simp [Memory.write, hb, Memory.wf]
    · simp [Memory.write, hb, Memory.wf]
  | cons p rest ih =>
    obtain ⟨c, v⟩ := p
    have hrest : Memory.wf rest := ⟨(List.pairwise_cons.1 hw.1).2, fun x hx => hw.2 x (by simp [hx])⟩
    have hlt : ∀ x ∈ rest, c < x.1 := (List.pairwise_cons.1 hw.1).1
    have hv : v ≠ Memory.unlisted := hw.2 (c, v) (by simp)
    unfold Memory.write
    split
    · rename_i hk
      split
      · exact hw
      · rename_i hb
        refine ⟨List.pairwise_cons.2 ⟨?_, hw.1⟩, ?_⟩
        · intro x hx
          rcases List.mem_cons.1 hx with rfl | hx
          · exact hk
          · exact Nat.lt_trans hk (hlt x hx)
        · intro x hx
          rcases List.mem_cons.1 hx with rfl | hx
          · exact hb
          · exact hw.2 x hx
    · split
      · rename_i hk
        split
        · exact hrest
        · rename_i hb
          refine ⟨List.pairwise_cons.2 ⟨fun x hx => hk ▸ hlt x hx, hrest.1⟩, ?_⟩
          intro x hx
          rcases List.mem_cons.1 hx with rfl | hx
          · exact hb
          · exact hrest.2 x hx
      · rename_i hk hne
        have ih' := ih hrest
        refine ⟨List.pairwise_cons.2 ⟨?_, ih'.1⟩, ?_⟩
        · intro x hx
          rcases Memory.mem_write rest k b x hx with h | ⟨rfl, _⟩
          · exact hlt x h
          · exact Nat.lt_of_le_of_ne (Nat.le_of_not_lt hk) (Ne.symm hne)
        · intro x hx
          rcases List.mem_cons.1 hx with rfl | hx
          · exact hv
          · exact ih'.2 x hx

/-- Writing a list of bytes keeps the canonical form. -/
theorem Memory.writeBytes_wf (m : Memory) (hw : m.wf) (k : Nat) (bs : List Byte) : (m.writeBytes k bs).wf := by
  induction bs generalizing m k with
  | nil => exact hw
  | cons b bs ih => exact ih _ (Memory.write_wf m hw k b) _

/-- An index named after a list of bytes was written was named before or lies in the range written. -/
theorem Memory.mem_writeBytes (m : Memory) (k : Nat) (bs : List Byte) (c : Host.Cell) (hc : c ∈ m.writeBytes k bs) :
    c ∈ m ∨ (k ≤ c.1 ∧ c.1 < k + bs.length) := by
  induction bs generalizing m k with
  | nil => exact .inl hc
  | cons b bs ih =>
    rcases ih _ _ hc with h | ⟨h1, h2⟩
    · rcases Memory.mem_write m k b c h with h | ⟨rfl, _⟩
      · exact .inl h
      · exact .inr ⟨Nat.le_refl _, by simp⟩
    · exact .inr ⟨by omega, by simp only [List.length_cons]; omega⟩

/-- Below the range written, every byte is as before. -/
theorem Memory.read_writeBytes_below (m : Memory) (k j : Nat) (bs : List Byte) (h : j < k) :
    (m.writeBytes k bs).read j = m.read j := by
  induction bs generalizing m k with
  | nil => rfl
  | cons b bs ih =>
    simp only [Memory.writeBytes]
    rw [ih _ _ (by omega), Memory.read_write_other _ _ _ _ (by omega)]

/-- Above the range written, every byte is as before. -/
theorem Memory.read_writeBytes_above (m : Memory) (k j : Nat) (bs : List Byte) (h : k + bs.length ≤ j) :
    (m.writeBytes k bs).read j = m.read j := by
  induction bs generalizing m k with
  | nil => rfl
  | cons b bs ih =>
    simp only [List.length_cons] at h
    simp only [Memory.writeBytes]
    rw [ih _ _ (by omega), Memory.read_write_other _ _ _ _ (by omega)]

/-- A list of bytes read back after it was written. -/
theorem Memory.read_writeBytes (m : Memory) (hw : m.wf) (k : Nat) (bs : List Byte) (n : Nat) (h : n < bs.length) :
    (m.writeBytes k bs).read (k + n) = bs[n] := by
  induction bs generalizing m k n with
  | nil => simp at h
  | cons b bs ih =>
    simp only [Memory.writeBytes]
    cases n with
    | zero =>
      have hb := Memory.read_writeBytes_below (m.write k b) (k + 1) k bs (by omega)
      rw [Memory.read_write_same m hw] at hb
      simpa using hb
    | succ n =>
      have hn : n < bs.length := by simpa using h
      have := ih (m.write k b) (Memory.write_wf m hw k b) (k + 1) n hn
      rw [show k + (n + 1) = k + 1 + n by omega, this]
      rfl

/-- Two canonical stores that read alike are the same data. -/
theorem Memory.ext_of_read (m n : Memory) (hm : m.wf) (hn : n.wf) (h : ∀ k, m.read k = n.read k) : m = n := by
  induction m generalizing n with
  | nil =>
    cases n with
    | nil => rfl
    | cons q rest =>
      have h1 := h q.1
      have h2 : q.2 ≠ Memory.unlisted := hn.2 q (by simp)
      simp [Memory.read] at h1
      exact absurd h1.symm h2
  | cons p ps ih =>
    have hps : Memory.wf ps := ⟨(List.pairwise_cons.1 hm.1).2, fun x hx => hm.2 x (by simp [hx])⟩
    have hp : ∀ x ∈ ps, p.1 < x.1 := (List.pairwise_cons.1 hm.1).1
    have hpv : p.2 ≠ Memory.unlisted := hm.2 p (by simp)
    cases n with
    | nil =>
      have h1 := h p.1
      simp [Memory.read] at h1
      exact absurd h1 hpv
    | cons q qs =>
      have hqs : Memory.wf qs := ⟨(List.pairwise_cons.1 hn.1).2, fun x hx => hn.2 x (by simp [hx])⟩
      have hq : ∀ x ∈ qs, q.1 < x.1 := (List.pairwise_cons.1 hn.1).1
      have hqv : q.2 ≠ Memory.unlisted := hn.2 q (by simp)
      have hk : p.1 = q.1 := by
        rcases Nat.lt_trichotomy p.1 q.1 with hlt | heq | hgt
        · have h1 := h p.1
          rw [Memory.read_of_lt_head (q :: qs) p.1 (by
            intro x hx
            rcases List.mem_cons.1 hx with rfl | hx
            · exact hlt
            · exact Nat.lt_trans hlt (hq x hx))] at h1
          simp [Memory.read] at h1
          exact absurd h1 hpv
        · exact heq
        · have h1 := h q.1
          rw [Memory.read_of_lt_head (p :: ps) q.1 (by
            intro x hx
            rcases List.mem_cons.1 hx with rfl | hx
            · exact hgt
            · exact Nat.lt_trans hgt (hp x hx))] at h1
          simp [Memory.read] at h1
          exact absurd h1.symm hqv
      have hv : p.2 = q.2 := by
        have h1 := h p.1
        simpa [Memory.read, hk] using h1
      have htail : ps = qs := by
        refine ih qs hps hqs fun k => ?_
        by_cases hkp : k = p.1
        · subst hkp
          rw [Memory.read_of_lt_head ps _ hp, Memory.read_of_lt_head qs _ (hk ▸ hq)]
        · have h1 := h k
          simpa [Memory.read, Ne.symm hkp, ← hk] using h1
      rw [htail, show p = q from Prod.ext hk hv]

/-- The program store of reset is canonical. -/
theorem reset_prog_wf : State.reset.prog.wf := by decide

end Sys2Proof.Machine
end

