-- ==== Sys2Proof/Laws/State.lean ====
section
/-! SUPPORT. One lemma per field per update of State, each true by rfl, so that no proof unfolds a record update. -/

namespace Sys2Proof.Machine

section Updates
variable (s : State) (i : Fin 32) (v : Word) (k : Nat) (m : Memory) (st : Status) (n : Notice) (c : Cause)

@[simp] theorem writeReg_x : (s.writeReg i v).x = s.x.set i v := rfl
@[simp] theorem writeReg_pc : (s.writeReg i v).pc = s.pc := rfl
@[simp] theorem writeReg_rem : (s.writeReg i v).rem = s.rem := rfl
@[simp] theorem writeReg_prog : (s.writeReg i v).prog = s.prog := rfl
@[simp] theorem writeReg_len : (s.writeReg i v).len = s.len := rfl
@[simp] theorem writeReg_status : (s.writeReg i v).status = s.status := rfl
@[simp] theorem writeReg_notices : (s.writeReg i v).notices = s.notices := rfl

@[simp] theorem setPc_x : (s.setPc k).x = s.x := rfl
@[simp] theorem setPc_pc : (s.setPc k).pc = k := rfl
@[simp] theorem setPc_rem : (s.setPc k).rem = s.rem := rfl
@[simp] theorem setPc_prog : (s.setPc k).prog = s.prog := rfl
@[simp] theorem setPc_len : (s.setPc k).len = s.len := rfl
@[simp] theorem setPc_status : (s.setPc k).status = s.status := rfl
@[simp] theorem setPc_notices : (s.setPc k).notices = s.notices := rfl

@[simp] theorem setRem_x : (s.setRem v).x = s.x := rfl
@[simp] theorem setRem_pc : (s.setRem v).pc = s.pc := rfl
@[simp] theorem setRem_rem : (s.setRem v).rem = v := rfl
@[simp] theorem setRem_prog : (s.setRem v).prog = s.prog := rfl
@[simp] theorem setRem_len : (s.setRem v).len = s.len := rfl
@[simp] theorem setRem_status : (s.setRem v).status = s.status := rfl
@[simp] theorem setRem_notices : (s.setRem v).notices = s.notices := rfl

@[simp] theorem setProgram_x : (s.setProgram m k).x = s.x := rfl
@[simp] theorem setProgram_pc : (s.setProgram m k).pc = s.pc := rfl
@[simp] theorem setProgram_rem : (s.setProgram m k).rem = s.rem := rfl
@[simp] theorem setProgram_prog : (s.setProgram m k).prog = m := rfl
@[simp] theorem setProgram_len : (s.setProgram m k).len = k := rfl
@[simp] theorem setProgram_status : (s.setProgram m k).status = s.status := rfl
@[simp] theorem setProgram_notices : (s.setProgram m k).notices = s.notices := rfl

@[simp] theorem setStatus_x : (s.setStatus st).x = s.x := rfl
@[simp] theorem setStatus_pc : (s.setStatus st).pc = s.pc := rfl
@[simp] theorem setStatus_rem : (s.setStatus st).rem = s.rem := rfl
@[simp] theorem setStatus_prog : (s.setStatus st).prog = s.prog := rfl
@[simp] theorem setStatus_len : (s.setStatus st).len = s.len := rfl
@[simp] theorem setStatus_status : (s.setStatus st).status = st := rfl
@[simp] theorem setStatus_notices : (s.setStatus st).notices = s.notices := rfl

@[simp] theorem notify_x : (s.notify n).x = s.x := rfl
@[simp] theorem notify_pc : (s.notify n).pc = s.pc := rfl
@[simp] theorem notify_rem : (s.notify n).rem = s.rem := rfl
@[simp] theorem notify_prog : (s.notify n).prog = s.prog := rfl
@[simp] theorem notify_len : (s.notify n).len = s.len := rfl
@[simp] theorem notify_status : (s.notify n).status = s.status := rfl
@[simp] theorem notify_notices : (s.notify n).notices = s.notices ++ [n] := rfl

@[simp] theorem halt_x : (s.halt c).x = s.x := rfl
@[simp] theorem halt_pc : (s.halt c).pc = s.pc := rfl
@[simp] theorem halt_rem : (s.halt c).rem = s.rem := rfl
@[simp] theorem halt_prog : (s.halt c).prog = s.prog := rfl
@[simp] theorem halt_len : (s.halt c).len = s.len := rfl
@[simp] theorem halt_status : (s.halt c).status = .halted c := rfl
@[simp] theorem halt_notices : (s.halt c).notices = s.notices := rfl

@[simp] theorem setPc_setPc (j : Nat) : (s.setPc k).setPc j = s.setPc j := rfl

end Updates

section Reads
variable (s : State) (i j : Fin 32) (v : Word)

@[simp] theorem readReg_writeReg_same : (s.writeReg i v).readReg i = v := by
  simp [State.readReg, State.writeReg]

theorem readReg_writeReg_other (h : j ≠ i) : (s.writeReg i v).readReg j = s.readReg j := by
  have : (i : Nat) ≠ (j : Nat) := fun e => h (Fin.ext e.symm)
  simp [State.readReg, State.writeReg, Vector.getElem_set_ne, this]

/-- A read of a register looks at `x` alone. -/
theorem readReg_congr (t : State) (h : t.x = s.x) : t.readReg i = s.readReg i := by
  simp [State.readReg, h]

/-- A read of a program byte looks at `prog` and `len` alone. -/
theorem byteAt_congr (t : State) (k : Nat) (hp : t.prog = s.prog) (hl : t.len = s.len) :
    t.byteAt k = s.byteAt k := by
  simp [State.byteAt, hp, hl]

/-- R32, R33: a byte exists exactly below `len`. -/
theorem byteAt_eq_some (k : Nat) (b : Byte) : s.byteAt k = some b ↔ k < s.len ∧ s.prog.read k = b := by
  simp [State.byteAt]

end Reads

end Sys2Proof.Machine
end

