-- ==== Sys2Proof/Laws/Operands.lean ====
section
/-! SUPPORT. One spec lemma per operand form: the readings of a word, the index check, and what each form can answer. -/

namespace Sys2Proof.Machine

/-- R6: the two's-complement reading is Lean's own. -/
theorem signed_eq_toInt (v : Word) : signed v = v.toInt := by
  simp only [signed, BitVec.toInt_eq_msb_cond, BitVec.msb_eq_getLsbD_last]
  rfl

/-- R6: `u(wrap32(n)) = n mod 2^32`. -/
theorem wrap32_toNat (n : Int) : ((wrap32 n).toNat : Int) = n % 2 ^ 32 := by
  have h0 : 0 ≤ n % 2 ^ 32 := Int.emod_nonneg _ (by decide)
  have h1 : n % 2 ^ 32 < 2 ^ 32 := Int.emod_lt_of_pos _ (by decide)
  simp only [wrap32, BitVec.toNat_ofNat]
  omega

theorem wrap32_eq_ofInt (n : Int) : wrap32 n = BitVec.ofInt 32 n := by
  apply BitVec.eq_of_toNat_eq
  simp [wrap32, BitVec.toNat_ofInt]
  omega

/-- R6: an integer in the signed range is read back from its pattern. -/
theorem wrap32_toInt (n : Int) (h0 : -2 ^ 31 ≤ n) (h1 : n < 2 ^ 31) : (wrap32 n).toInt = n := by
  rw [wrap32_eq_ofInt, BitVec.toInt_ofInt, Int.bmod_def]
  omega

theorem zext32_toNat (v : Imm16) : (zext32 v).toNat = v.toNat := by
  simp [zext32]
  omega

/-- R51: the index check, on numbers. -/
theorem indexLegal_iff (b : Byte) : indexLegal b = true ↔ b.toNat < 32 := by simp [indexLegal]

/-- R70: a legal index byte selects the register it names. -/
theorem regSelect_val (b : Byte) (h : b.toNat < 32) : (regSelect b).val = b.toNat := Nat.mod_eq_of_lt h

theorem regSelect_eq (b : Byte) (h : b.toNat < 32) : regSelect b = ⟨b.toNat, h⟩ := Fin.ext (regSelect_val b h)

/-- Format I with a legal index. -/
theorem immediateForm_legal (d : Byte) (v : Word) (s : State) (h : d.toNat < 32) :
    immediateForm d v s = s.writeReg ⟨d.toNat, h⟩ v := by
  simp [immediateForm, indexLegal, h, regSelect_eq d h]

/-- Format I with an index that names no register. -/
theorem immediateForm_illegal (d : Byte) (v : Word) (s : State) (h : 32 ≤ d.toNat) :
    immediateForm d v s = s.halt .invalidRegister := by
  simp [immediateForm, indexLegal, Nat.not_lt.2 h]

/-- Format R with three legal indices. -/
theorem registerForm_legal (a b d : Byte) (f : Word → Word → Fin 32 → State → State) (s : State)
    (ha : a.toNat < 32) (hb : b.toNat < 32) (hd : d.toNat < 32) :
    registerForm a b d f s = f (s.readReg ⟨a.toNat, ha⟩) (s.readReg ⟨b.toNat, hb⟩) ⟨d.toNat, hd⟩ s := by
  simp [registerForm, indexLegal, ha, hb, hd, regSelect_eq]

/-- Format R with an index that names no register. -/
theorem registerForm_illegal (a b d : Byte) (f : Word → Word → Fin 32 → State → State) (s : State)
    (h : 32 ≤ a.toNat ∨ 32 ≤ b.toNat ∨ 32 ≤ d.toNat) : registerForm a b d f s = s.halt .invalidRegister := by
  have : ¬ (a.toNat < 32 ∧ b.toNat < 32 ∧ d.toNat < 32) := by omega
  have h' : (indexLegal a && indexLegal b && indexLegal d) = false := by
    simp only [indexLegal, Bool.and_eq_false_iff, decide_eq_false_iff_not]
    omega
  simp [registerForm, h']

/-- Everything format R can answer. -/
theorem registerForm_cases (a b d : Byte) (f : Word → Word → Fin 32 → State → State) (s : State) :
    registerForm a b d f s = s.halt .invalidRegister ∨
    (a.toNat < 32 ∧ b.toNat < 32 ∧ d.toNat < 32 ∧
      registerForm a b d f s = f (s.readReg (regSelect a)) (s.readReg (regSelect b)) (regSelect d) s) := by
  by_cases h : a.toNat < 32 ∧ b.toNat < 32 ∧ d.toNat < 32
  · exact .inr ⟨h.1, h.2.1, h.2.2, by simp [registerForm, indexLegal, h.1, h.2.1, h.2.2]⟩
  · exact .inl (registerForm_illegal a b d f s (by omega))

/-- R102, R103: when DIV halts, in Lean's own reading. -/
theorem divFaults_iff (opA opB : Word) :
    divFaults opA opB = true ↔ opB.toInt = 0 ∨ (opA.toInt = -2 ^ 31 ∧ opB.toInt = -1) := by
  simp [divFaults, signed_eq_toInt]

/-- R101: the remainder is Lean's truncating remainder. -/
theorem remainder_eq_tmod (n m : Int) : remainder n m = n.tmod m := by
  simp [remainder, quotient, Int.tmod_def]

/-- Everything the part of DIV after the index check can answer. -/
theorem finishDiv_cases (opA opB : Word) (dst : Fin 32) (s : State) :
    (divFaults opA opB = true ∧ finishDiv opA opB dst s = s.halt .arithmeticFault) ∨
    (divFaults opA opB = false ∧ finishDiv opA opB dst s =
      (s.writeReg dst (wrap32 (quotient (signed opA) (signed opB)))).setRem
        (wrap32 (remainder (signed opA) (signed opB)))) := by
  cases h : divFaults opA opB <;> simp [finishDiv, h]

end Sys2Proof.Machine
end

