-- ==== Sys2Proof/Laws/PerInstr.lean ====
section
/-! SUPPORT. Facts about the instruction as syntax, one lemma per constructor. `OpcodeByte`: the first byte of an encoding is the
opcode of 30_encoding.md R49 and selects the instruction's own class. -/

namespace Sys2Proof.Laws.OpcodeByte

/-- R49: the class of an instruction. -/
def classOf : Instr → OpClass
  | .hlt => .hlt
  | .load _ _ => .load
  | .add _ _ _ => .add
  | .sub _ _ _ => .sub
  | .mul _ _ _ => .mul
  | .div _ _ _ => .div

/-- The encoding begins with a byte that the opcode decoder reads as the instruction's class. -/
def Statement (i : Instr) : Prop := (encode i).head?.map decodeOpcode = some (classOf i)

theorem hlt : Statement .hlt := rfl
theorem load (d : Byte) (imm : Imm16) : Statement (.load d imm) := rfl
theorem add (a b d : Byte) : Statement (.add a b d) := rfl
theorem sub (a b d : Byte) : Statement (.sub a b d) := rfl
theorem mul (a b d : Byte) : Statement (.mul a b d) := rfl
theorem div (a b d : Byte) : Statement (.div a b d) := rfl

end Sys2Proof.Laws.OpcodeByte
end

