-- ==== Sys2Proof/Laws/Step.lean ====
section
/-! SUPPORT. What the fetches answer, and one equation of `step` for each thing a step can meet, from which the claims about a step
are derived without unfolding it. -/

namespace Sys2Proof.Machine

/-- R32: END. -/
theorem fetch_end (s : State) (h : s.len ≤ s.pc) : fetch s = none := by simp [fetch, h]

/-- R32: a byte. -/
theorem fetch_byte (s : State) (h : s.pc < s.len) : fetch s = some (s.prog.read s.pc, s.setPc (s.pc + 1)) := by
  simp [fetch, Nat.not_le.2 h]

theorem fetchOperand_end (s : State) (h : s.len ≤ s.pc) : fetchOperand s = .error (s.halt .truncated) := by
  simp [fetchOperand, fetch_end s h]

theorem fetchOperand_byte (s : State) (h : s.pc < s.len) :
    fetchOperand s = .ok (s.prog.read s.pc, s.setPc (s.pc + 1)) := by
  simp [fetchOperand, fetch_byte s h]

/-- R68: all three operand bytes are there. -/
theorem fetchOperands_complete (mk : Byte → Byte → Byte → Instr) (s : State) (h : s.pc + 3 ≤ s.len) :
    fetchOperands mk s = .ok (mk (s.prog.read s.pc) (s.prog.read (s.pc + 1)) (s.prog.read (s.pc + 2)),
      s.setPc (s.pc + 3)) := by
  simp only [fetchOperands]
  rw [fetchOperand_byte s (by omega)]
  dsimp only
  rw [fetchOperand_byte _ (by simp; omega)]
  dsimp only
  rw [fetchOperand_byte _ (by simp; omega)]
  simp

/-- R68: an operand byte is missing; the ones that exist are consumed. -/
theorem fetchOperands_truncated (mk : Byte → Byte → Byte → Instr) (s : State) (h0 : s.pc ≤ s.len)
    (h : s.len < s.pc + 3) : fetchOperands mk s = .error ((s.setPc s.len).halt .truncated) := by
  simp only [fetchOperands]
  rcases Nat.eq_or_lt_of_le h0 with h1 | h1
  · rw [fetchOperand_end s (by omega)]
    have hs : s.setPc s.len = s := by rw [← h1]; rfl
    simp [hs]
  · rw [fetchOperand_byte s h1]
    dsimp only
    rcases Nat.eq_or_lt_of_le (Nat.succ_le_of_lt h1) with h2 | h2
    · rw [fetchOperand_end _ (by simp; omega)]
      simp [← h2]
    · rw [fetchOperand_byte _ (by simp; omega)]
      dsimp only
      rw [fetchOperand_end _ (by simp; omega)]
      simp [show s.pc + 1 + 1 = s.len by omega]

/-- R76. -/
theorem step_halted (s : State) (c : Cause) (h : s.status = .halted c) : step s = .next s := by
  simp [step, beginStep, h]

/-- R66: a RUNNING step that ends in its fetches. -/
theorem step_of_fetch_error (s t : State) (h : s.status = .running) (hf : fetchInstr s = .error t) : step s = .next t := by
  simp [step, beginStep, h, hf]

/-- R66: a RUNNING step whose fetches give an instruction. -/
theorem step_of_fetch_ok (s t : State) (i : Instr) (h : s.status = .running) (hf : fetchInstr s = .ok (i, t)) :
    step s = exec i t := by
  simp [step, beginStep, h, hf]

/-- R67. -/
theorem step_exhausted (s : State) (h : s.status = .running) (hp : s.len ≤ s.pc) :
    step s = .next (s.halt .exhausted) :=
  step_of_fetch_error s _ h (by simp [fetchInstr, fetch_end s hp])

/-- R110. -/
theorem step_hlt (s : State) (h : s.status = .running) (hp : s.pc < s.len) (ho : s.prog.read s.pc = 0) :
    step s = exec .hlt (s.setPc (s.pc + 1)) :=
  step_of_fetch_ok s _ _ h (by simp [fetchInstr, fetch_byte s hp, (decodeOpcode_hlt _).2 ho])

/-- R111. -/
theorem step_illegal (s : State) (h : s.status = .running) (hp : s.pc < s.len)
    (ho : 6 ≤ (s.prog.read s.pc).toNat) : step s = .next (illegalOpcode (s.setPc (s.pc + 1))) :=
  step_of_fetch_error s _ h (by simp [fetchInstr, fetch_byte s hp, (decodeOpcode_illegal _).2 ho])

/-- The five opcodes with operands. -/
theorem opcode_cases (b : Byte) (h1 : 1 ≤ b.toNat) (h2 : b.toNat ≤ 5) : b = 1 ∨ b = 2 ∨ b = 3 ∨ b = 4 ∨ b = 5 := by
  revert b; decide

/-- R68. -/
theorem step_truncated (s : State) (h : s.status = .running) (hp : s.pc < s.len)
    (h1 : 1 ≤ (s.prog.read s.pc).toNat) (h2 : (s.prog.read s.pc).toNat ≤ 5) (ht : s.len < s.pc + 4) :
    step s = .next ((s.setPc s.len).halt .truncated) := by
  have hf : ∀ mk, fetchOperands mk (s.setPc (s.pc + 1)) = .error ((s.setPc s.len).halt .truncated) := fun mk => by
    rw [fetchOperands_truncated mk _ (by simp; omega) (by simp; omega)]
    simp
  apply step_of_fetch_error s _ h
  rcases opcode_cases _ h1 h2 with e | e | e | e | e <;>
    simp [fetchInstr, fetch_byte s hp, e, hf, decodeOpcode]

/-- The instruction an opcode byte 1 to 5 makes with its operand bytes (R47, R48, R55). -/
def instrOf (b0 o1 o2 o3 : Byte) : Instr :=
  if b0 = 1 then assembleLoad o1 o2 o3 else if b0 = 2 then .add o1 o2 o3 else if b0 = 3 then .sub o1 o2 o3
  else if b0 = 4 then .mul o1 o2 o3 else .div o1 o2 o3

/-- R66: an instruction with operands, all its bytes present. -/
theorem step_operands (s : State) (h : s.status = .running) (hp : s.pc + 4 ≤ s.len)
    (h1 : 1 ≤ (s.prog.read s.pc).toNat) (h2 : (s.prog.read s.pc).toNat ≤ 5) :
    step s = exec (instrOf (s.prog.read s.pc) (s.prog.read (s.pc + 1)) (s.prog.read (s.pc + 2))
      (s.prog.read (s.pc + 3))) (s.setPc (s.pc + 4)) := by
  have hf : ∀ mk, fetchOperands mk (s.setPc (s.pc + 1)) =
      .ok (mk (s.prog.read (s.pc + 1)) (s.prog.read (s.pc + 2)) (s.prog.read (s.pc + 3)), s.setPc (s.pc + 4)) :=
    fun mk => by
      rw [fetchOperands_complete mk _ (by simp; omega)]
      simp
  apply step_of_fetch_ok s _ _ h
  rcases opcode_cases _ h1 h2 with e | e | e | e | e <;>
    simp [fetchInstr, fetch_byte s (by omega : s.pc < s.len), e, hf, decodeOpcode, instrOf]

/-- Everything a step can meet, in the order of R128. -/
theorem step_cases (s : State) :
    (∃ c, s.status = .halted c ∧ step s = .next s) ∨
    (s.status = .running ∧ s.len ≤ s.pc ∧ step s = .next (s.halt .exhausted)) ∨
    (s.status = .running ∧ s.pc < s.len ∧ s.prog.read s.pc = 0 ∧ step s = exec .hlt (s.setPc (s.pc + 1))) ∨
    (s.status = .running ∧ s.pc < s.len ∧ 6 ≤ (s.prog.read s.pc).toNat ∧
      step s = .next (illegalOpcode (s.setPc (s.pc + 1)))) ∨
    (s.status = .running ∧ s.pc < s.len ∧ 1 ≤ (s.prog.read s.pc).toNat ∧ (s.prog.read s.pc).toNat ≤ 5 ∧
      s.len < s.pc + 4 ∧ step s = .next ((s.setPc s.len).halt .truncated)) ∨
    (s.status = .running ∧ s.pc + 4 ≤ s.len ∧ 1 ≤ (s.prog.read s.pc).toNat ∧ (s.prog.read s.pc).toNat ≤ 5 ∧
      step s = exec (instrOf (s.prog.read s.pc) (s.prog.read (s.pc + 1)) (s.prog.read (s.pc + 2))
        (s.prog.read (s.pc + 3))) (s.setPc (s.pc + 4))) := by
  cases h : s.status with
  | halted c => exact .inl ⟨c, rfl, step_halted s c h⟩
  | running =>
    refine .inr ?_
    rcases Nat.lt_or_ge s.pc s.len with hp | hp
    · rcases Nat.eq_zero_or_pos (s.prog.read s.pc).toNat with h0 | h0
      · have ho : s.prog.read s.pc = 0 := BitVec.eq_of_toNat_eq h0
        exact .inr (.inl ⟨rfl, hp, ho, step_hlt s h hp ho⟩)
      · rcases Nat.lt_or_ge (s.prog.read s.pc).toNat 6 with h6 | h6
        · have h5 : (s.prog.read s.pc).toNat ≤ 5 := by omega
          rcases Nat.lt_or_ge s.len (s.pc + 4) with ht | ht
          · exact .inr (.inr (.inr (.inl ⟨rfl, hp, h0, h5, ht, step_truncated s h hp h0 h5 ht⟩)))
          · exact .inr (.inr (.inr (.inr ⟨rfl, ht, h0, h5, step_operands s h ht h0 h5⟩)))
        · exact .inr (.inr (.inl ⟨rfl, hp, h6, step_illegal s h hp h6⟩))
    · exact .inl ⟨rfl, hp, step_exhausted s h hp⟩

/-- Everything an instruction can answer: HLT halts; the others halt with nothing written, or write their register, and DIV also
`rem`. -/
theorem exec_cases (i : Instr) (s : State) :
    (i = .hlt ∧ exec i s = .next ((s.notify .haltNotice).halt .hlt)) ∨
    (i.wellFormed = false ∧ exec i s = .next (s.halt .invalidRegister)) ∨
    ((∃ a b d, i = .div a b d) ∧ i.wellFormed = true ∧ exec i s = .next (s.halt .arithmeticFault)) ∨
    (i.wellFormed = true ∧ (∀ a b d, i ≠ .div a b d) ∧ ∃ r v, exec i s = .next (s.writeReg r v)) ∨
    (i.wellFormed = true ∧ (∃ a b d, i = .div a b d) ∧ ∃ r v w, exec i s = .next ((s.writeReg r v).setRem w)) := by
  have three : ∀ a b d : Byte, (indexLegal a && indexLegal b && indexLegal d) = false →
      32 ≤ a.toNat ∨ 32 ≤ b.toNat ∨ 32 ≤ d.toNat := by
    intro a b d h
    simp only [indexLegal, Bool.and_eq_false_iff, decide_eq_false_iff_not] at h
    omega
  cases i with
  | hlt => exact .inl ⟨rfl, rfl⟩
  | load d imm =>
    cases hw : indexLegal d with
    | false => exact .inr (.inl ⟨by simp [Instr.wellFormed, hw], by simp [exec, execLoad, immediateForm, hw]⟩)
    | true =>
      exact .inr (.inr (.inr (.inl ⟨by simp [Instr.wellFormed, hw], by simp, _, _,
        by simp [exec, execLoad, immediateForm, hw]; rfl⟩)))
  | add a b d =>
    cases hw : (indexLegal a && indexLegal b && indexLegal d) with
    | false =>
      exact .inr (.inl ⟨by simpa [Instr.wellFormed] using hw,
        by simp [exec, execAdd, registerForm_illegal a b d _ s (three a b d hw)]⟩)
    | true =>
      exact .inr (.inr (.inr (.inl ⟨by simpa [Instr.wellFormed] using hw, by simp, _, _,
        by simp only [exec, execAdd, registerForm, hw]; rfl⟩)))
  | sub a b d =>
    cases hw : (indexLegal a && indexLegal b && indexLegal d) with
    | false =>
      exact .inr (.inl ⟨by simpa [Instr.wellFormed] using hw,
        by simp [exec, execSub, registerForm_illegal a b d _ s (three a b d hw)]⟩)
    | true =>
      exact .inr (.inr (.inr (.inl ⟨by simpa [Instr.wellFormed] using hw, by simp, _, _,
        by simp only [exec, execSub, registerForm, hw]; rfl⟩)))
  | mul a b d =>
    cases hw : (indexLegal a && indexLegal b && indexLegal d) with
    | false =>
      exact .inr (.inl ⟨by simpa [Instr.wellFormed] using hw,
        by simp [exec, execMul, registerForm_illegal a b d _ s (three a b d hw)]⟩)
    | true =>
      exact .inr (.inr (.inr (.inl ⟨by simpa [Instr.wellFormed] using hw, by simp, _, _,
        by simp only [exec, execMul, registerForm, hw]; rfl⟩)))
  | div a b d =>
    cases hw : (indexLegal a && indexLegal b && indexLegal d) with
    | false =>
      exact .inr (.inl ⟨by simpa [Instr.wellFormed] using hw,
        by simp [exec, execDiv, registerForm_illegal a b d _ s (three a b d hw)]⟩)
    | true =>
      have hw' : (Instr.div a b d).wellFormed = true := by simpa [Instr.wellFormed] using hw
      have he : exec (.div a b d) s = .next (finishDiv (s.readReg (regSelect a)) (s.readReg (regSelect b))
          (regSelect d) s) := by
        simp only [exec, execDiv, registerForm, hw]; rfl
      rcases finishDiv_cases (s.readReg (regSelect a)) (s.readReg (regSelect b)) (regSelect d) s with ⟨_, h⟩ | ⟨_, h⟩
      · exact .inr (.inr (.inl ⟨⟨a, b, d, rfl⟩, hw', by rw [he, h]⟩))
      · exact .inr (.inr (.inr (.inr ⟨hw', ⟨a, b, d, rfl⟩, _, _, _, by rw [he, h]⟩)))

/-- An opcode byte 1 to 5 makes no HLT. -/
theorem instrOf_ne_hlt (b0 o1 o2 o3 : Byte) : instrOf b0 o1 o2 o3 ≠ .hlt := by
  simp only [instrOf, assembleLoad]
  split_ifs <;> simp

/-- Only the opcode byte 5 makes a DIV. -/
theorem instrOf_eq_div (b0 o1 o2 o3 a b d : Byte) (h1 : 1 ≤ b0.toNat) (h2 : b0.toNat ≤ 5)
    (h : instrOf b0 o1 o2 o3 = .div a b d) : b0 = 5 ∧ a = o1 ∧ b = o2 ∧ d = o3 := by
  rcases opcode_cases b0 h1 h2 with rfl | rfl | rfl | rfl | rfl <;> simp [instrOf, assembleLoad] at h ⊢
  exact ⟨h.1.symm, h.2.1.symm, h.2.2.symm⟩

/-- R69: which operand bytes the index check looks at. -/
theorem instrOf_wellFormed (b0 o1 o2 o3 : Byte) (h1 : 1 ≤ b0.toNat) (h2 : b0.toNat ≤ 5) :
    (instrOf b0 o1 o2 o3).wellFormed = false ↔
      32 ≤ o1.toNat ∨ (b0 ≠ 1 ∧ (32 ≤ o2.toNat ∨ 32 ≤ o3.toNat)) := by
  rcases opcode_cases b0 h1 h2 with rfl | rfl | rfl | rfl | rfl <;>
    by_cases ha : o1.toNat < 32 <;> by_cases hb : o2.toNat < 32 <;> by_cases hd : o3.toNat < 32 <;>
    simp_all [instrOf, assembleLoad, Instr.wellFormed, indexLegal]

/-- The instruction that `pc` stands at, where its four bytes are present and its opcode byte is 1 to 5. -/
def State.instrAtPc (s : State) : Instr :=
  instrOf (s.prog.read s.pc) (s.prog.read (s.pc + 1)) (s.prog.read (s.pc + 2)) (s.prog.read (s.pc + 3))

/-- The nine ways a step from `s` can end in `t`, each with everything that holds then. -/
inductive StepEnds (s t : State) : Prop
  | alreadyHalted (c : Cause) (hs : s.status = .halted c) (ht : t = s)
  | exhausted (hs : s.status = .running) (hp : s.len ≤ s.pc) (ht : t = s.halt .exhausted)
  | hlt (hs : s.status = .running) (hp : s.pc < s.len) (ho : s.prog.read s.pc = 0)
      (ht : t = ((s.setPc (s.pc + 1)).notify .haltNotice).halt .hlt)
  | illegal (hs : s.status = .running) (hp : s.pc < s.len) (ho : 6 ≤ (s.prog.read s.pc).toNat)
      (ht : t = illegalOpcode (s.setPc (s.pc + 1)))
  | truncated (hs : s.status = .running) (hp : s.pc < s.len) (h1 : 1 ≤ (s.prog.read s.pc).toNat)
      (h2 : (s.prog.read s.pc).toNat ≤ 5) (hl : s.len < s.pc + 4) (ht : t = (s.setPc s.len).halt .truncated)
  | invalidRegister (hs : s.status = .running) (hp : s.pc + 4 ≤ s.len) (h1 : 1 ≤ (s.prog.read s.pc).toNat)
      (h2 : (s.prog.read s.pc).toNat ≤ 5) (hw : s.instrAtPc.wellFormed = false)
      (ht : t = (s.setPc (s.pc + 4)).halt .invalidRegister)
  | arithmeticFault (hs : s.status = .running) (hp : s.pc + 4 ≤ s.len) (ho : s.prog.read s.pc = 5)
      (hw : s.instrAtPc.wellFormed = true)
      (hd : divFaults (s.readReg (regSelect (s.prog.read (s.pc + 1)))) (s.readReg (regSelect (s.prog.read (s.pc + 2)))) = true)
      (ht : t = (s.setPc (s.pc + 4)).halt .arithmeticFault)
  | registerWritten (hs : s.status = .running) (hp : s.pc + 4 ≤ s.len) (h1 : 1 ≤ (s.prog.read s.pc).toNat)
      (h2 : (s.prog.read s.pc).toNat ≤ 4) (hw : s.instrAtPc.wellFormed = true) (r : Fin 32) (v : Word)
      (ht : t = (s.setPc (s.pc + 4)).writeReg r v)
  | divided (hs : s.status = .running) (hp : s.pc + 4 ≤ s.len) (ho : s.prog.read s.pc = 5)
      (hw : s.instrAtPc.wellFormed = true)
      (hd : divFaults (s.readReg (regSelect (s.prog.read (s.pc + 1)))) (s.readReg (regSelect (s.prog.read (s.pc + 2)))) = false)
      (r : Fin 32) (v w : Word) (ht : t = ((s.setPc (s.pc + 4)).writeReg r v).setRem w)

/-- DIV with legal indices is `finishDiv` of the operand values. -/
theorem execDiv_wellFormed (a b d : Byte) (s : State) (h : (Instr.div a b d).wellFormed = true) :
    exec (.div a b d) s =
      .next (finishDiv (s.readReg (regSelect a)) (s.readReg (regSelect b)) (regSelect d) s) := by
  have h' : (indexLegal a && indexLegal b && indexLegal d) = true := h
  simp only [exec, execDiv, registerForm, h']
  rfl

/-- The DIV part of the inversion: with legal indices the step ends as `finishDiv` does. -/
theorem stepEnds_of_div (s t : State) (a b d : Byte) (hr : s.status = .running) (hp : s.pc + 4 ≤ s.len)
    (h1 : 1 ≤ (s.prog.read s.pc).toNat) (h2 : (s.prog.read s.pc).toNat ≤ 5) (hi : s.instrAtPc = .div a b d)
    (hw : s.instrAtPc.wellFormed = true) (h : exec s.instrAtPc (s.setPc (s.pc + 4)) = .next t) : StepEnds s t := by
  obtain ⟨ho, rfl, rfl, rfl⟩ := instrOf_eq_div _ _ _ _ _ _ _ h1 h2 hi
  rw [hi, execDiv_wellFormed _ _ _ _ (hi ▸ hw)] at h
  injection h with h
  rcases finishDiv_cases (s.readReg (regSelect (s.prog.read (s.pc + 1)))) (s.readReg (regSelect (s.prog.read (s.pc + 2))))
    (regSelect (s.prog.read (s.pc + 3))) (s.setPc (s.pc + 4)) with ⟨hf, e⟩ | ⟨hf, e⟩
  · exact .arithmeticFault hr hp ho hw hf (h.symm.trans e)
  · exact .divided hr hp ho hw hf _ _ _ (h.symm.trans e)

/-- Inversion of a step: it ends in one of the nine ways. -/
theorem step_ends (s t : State) (h : step s = .next t) : StepEnds s t := by
  rcases step_cases s with ⟨c, hc, e⟩ | ⟨hr, hp, e⟩ | ⟨hr, hp, ho, e⟩ | ⟨hr, hp, ho, e⟩ | ⟨hr, hp, h1, h2, hl, e⟩ |
    ⟨hr, hp, h1, h2, e⟩ <;> rw [e] at h
  · exact .alreadyHalted c hc (by injection h with h; exact h.symm)
  · exact .exhausted hr hp (by injection h with h; exact h.symm)
  · exact .hlt hr hp ho (by injection h with h; exact h.symm)
  · exact .illegal hr hp ho (by injection h with h; exact h.symm)
  · exact .truncated hr hp h1 h2 hl (by injection h with h; exact h.symm)
  · rcases exec_cases s.instrAtPc (s.setPc (s.pc + 4)) with ⟨hi, _⟩ | ⟨hw, e'⟩ | ⟨⟨a, b, d, hd⟩, hw, _⟩ | ⟨hw, hd, r, v, e'⟩ |
      ⟨hw, ⟨a, b, d, hd⟩, _⟩
    · exact absurd hi (instrOf_ne_hlt _ _ _ _)
    · exact .invalidRegister hr hp h1 h2 hw (by injection e'.symm.trans h with h; exact h.symm)
    · exact stepEnds_of_div s t a b d hr hp h1 h2 hd hw h
    · refine .registerWritten hr hp h1 ?_ hw r v (by injection e'.symm.trans h with h; exact h.symm)
      by_contra h5
      have ho : s.prog.read s.pc = 5 := BitVec.eq_of_toNat_eq (by simp; omega)
      exact hd _ _ _ (by simp only [State.instrAtPc, ho]; rfl)
    · exact stepEnds_of_div s t a b d hr hp h1 h2 hd hw h

end Sys2Proof.Machine
end

