-- ==== Sys2Proof/Tests/Slice0.lean ====
section
/-! SUPPORT. The model's own tests. Expected results come from the spec: the vectors of 95_test_vectors.md (named in each comment), the
layouts of 30_encoding.md, and the tables of R101 and R120. The theorems named witness_… show, for each statement of
Certificates/Slice0/Obligations.lean that has hypotheses, a concrete state and operands that meet all of them. -/

namespace Sys2Proof.Tests

open Sys2Proof Sys2Proof.Machine

/-! ### Helpers -/

/-- The reset state with a program loaded. -/
def loaded (bytes : List Byte) : State := State.reset.setProgram (Memory.writeBytes [] 0 bytes) bytes.length

/-- A state with values in two registers. -/
def withTwo (s : State) (i : Fin 32) (v : Word) (j : Fin 32) (w : Word) : State := (s.writeReg i v).writeReg j w

/-- The next state, where there is one. -/
def after : Result → Option State
  | .next t => some t
  | .fault _ => none
  | .refused _ => none

/-- The value of register `i` after a result. -/
def regAfter (i : Fin 32) (r : Result) : Option Word := (after r).map (fun t => t.readReg i)

/-- `pc`, status and notices after a result. -/
def endAfter (r : Result) : Option (Nat × Status × List Notice) := (after r).map (fun t => (t.pc, t.status, t.notices))

/-- Two operand values in `x[0]` and `x[1]`. -/
def operands (v w : Word) : State := withTwo State.reset 0 v 1 w

/-! ### WellFormed: an ill-formed term for each check (R51, R53) -/

theorem test_wellFormed_load_d : (Instr.load 32 9).wellFormed = false ∧ (Instr.load 31 0xFFFF).wellFormed = true := by decide
theorem test_wellFormed_add : (Instr.add 32 0 1).wellFormed = false ∧ (Instr.add 0 32 1).wellFormed = false ∧
    (Instr.add 0 0 32).wellFormed = false ∧ (Instr.add 31 31 31).wellFormed = true := by decide
theorem test_wellFormed_sub : (Instr.sub 32 0 1).wellFormed = false ∧ (Instr.sub 0 255 1).wellFormed = false ∧
    (Instr.sub 0 0 128).wellFormed = false ∧ (Instr.sub 31 0 31).wellFormed = true := by decide
theorem test_wellFormed_mul : (Instr.mul 64 0 1).wellFormed = false ∧ (Instr.mul 0 32 1).wellFormed = false ∧
    (Instr.mul 0 0 32).wellFormed = false ∧ (Instr.mul 0 31 31).wellFormed = true := by decide
theorem test_wellFormed_div : (Instr.div 32 0 1).wellFormed = false ∧ (Instr.div 0 32 1).wellFormed = false ∧
    (Instr.div 0 1 40).wellFormed = false ∧ (Instr.div 0 1 31).wellFormed = true := by decide
theorem test_wellFormed_hlt : Instr.hlt.wellFormed = true := by decide

/-! ### Decode: words written out from the layouts of R46, R47, R48 -/

theorem test_decode_hlt : decodeTableWord 8 0b00000000 = some .hlt := by decide
-- `LOAD x7, 0x8000` = [1, 7, 128, 0]: opcode, d, imm_hi, imm_lo.
theorem test_decode_load : decodeTableWord 32 0b00000001_00000111_10000000_00000000 = some (.load 7 0x8000) := by decide
-- V-LOAD-5: [1,3,244,1] is the immediate 0xF401, not 0x01F4.
theorem test_decode_load_byte_order : decodeTableWord 32 0x0103F401 = some (.load 3 0xF401) := by decide
-- `ADD x0, x1, x2` = [2,0,1,2]: opcode, a, b, d.
theorem test_decode_add : decodeTableWord 32 0b00000010_00000000_00000001_00000010 = some (.add 0 1 2) := by decide
theorem test_decode_sub : decodeTableWord 32 0b00000011_00000101_00000011_00000111 = some (.sub 5 3 7) := by decide
theorem test_decode_mul : decodeTableWord 32 0b00000100_00000101_00000010_00000110 = some (.mul 5 2 6) := by decide
-- An index of 40 is decoded whole (R51).
theorem test_decode_div : decodeTableWord 32 0b00000101_00000000_00000001_00101000 = some (.div 0 1 40) := by decide
theorem test_decode_illegal : decodeTableWord 32 0x06000000 = none ∧ decodeTableWord 32 0xFF010203 = none ∧
    decodeTableWord 8 128 = none := by decide
theorem test_decode_truncated : (decode [2, 40, 0]).toOption = none ∧ (decode []).toOption = none := by decide
theorem test_encode_load : encode (.load 0 500) = [1, 0, 1, 244] := by decide
theorem test_encode_div : encode (.div 5 4 6) = [5, 5, 4, 6] := by decide

/-! ### LOAD (41_load.md) -/

-- S4: [1,0,1,244] results in register 0 = 500 and pc 4.
theorem test_load_500 : regAfter 0 (step (loaded [1, 0, 1, 244])) = some 500 ∧
    endAfter (step (loaded [1, 0, 1, 244])) = some (4, .running, []) := by decide
-- V-LOAD-3: zero extension, not −1.
theorem test_load_zero_extends : regAfter 7 (step (loaded [1, 7, 255, 255])) = some 0x0000FFFF := by decide

/-! ### ADD, SUB, MUL (42_arith.md) -/

-- V-ADD-3, V-ADD-4.
theorem test_add_wraps : regAfter 2 (execAdd 0 1 2 (operands 0x7FFFFFFF 1)) = some 0x80000000 ∧
    regAfter 2 (execAdd 0 1 2 (operands 0x80000000 0x80000000)) = some 0 := by decide
-- V-ALIAS-1: source and destination the same.
theorem test_add_alias : regAfter 0 (execAdd 0 0 0 (operands 17 0)) = some 34 := by decide
-- V-SUB-2: the operand order matters.
theorem test_sub_order : regAfter 2 (execSub 0 1 2 (operands 2 10)) = some 0xFFFFFFF8 := by decide
-- V-SUB-5, V-SUB-6.
theorem test_sub_wraps : regAfter 2 (execSub 0 1 2 (operands 0x80000000 1)) = some 0x7FFFFFFF ∧
    regAfter 2 (execSub 0 1 2 (operands 0 0x80000000)) = some 0x80000000 := by decide
-- V-MUL-4, V-MUL-9.
theorem test_mul_signs : regAfter 2 (execMul 0 1 2 (operands 7 0xFFFFFFFF)) = some 0xFFFFFFF9 ∧
    regAfter 2 (execMul 0 1 2 (operands 0x80000000 0xFFFFFFFF)) = some 0x80000000 := by decide
-- V-MUL-7, V-MUL-12.
theorem test_mul_wraps : regAfter 2 (execMul 0 1 2 (operands 65535 65535)) = some 0xFFFE0001 ∧
    regAfter 2 (execMul 0 1 2 (operands 0x12345678 0x9ABCDEF0)) = some 0x242D2080 := by decide

/-! ### DIV (43_div.md) -/

/-- The quotient in `x[2]` and `rem` after `DIV x0, x1, x2` on two operand values. -/
def divResult (v w : Word) : Option (Word × Word) := (after (execDiv 0 1 2 (operands v w))).map (fun t => (t.readReg 2, t.rem))

-- The rows of R101 with a negative operand (V-DIV-3, V-DIV-4, V-DIV-5, V-DIV-8), V-DIV-11, V-DIV-14, V-DIV-15, V-DIV-17.
theorem test_div_rounds_toward_zero : divResult 0xFFFFFFF9 2 = some (0xFFFFFFFD, 0xFFFFFFFF) ∧
    divResult 7 0xFFFFFFFE = some (0xFFFFFFFD, 1) ∧ divResult 0xFFFFFFF9 0xFFFFFFFE = some (3, 0xFFFFFFFF) ∧
    divResult 0xFFFFFFFD 5 = some (0, 0xFFFFFFFD) ∧ divResult 0x80000000 2 = some (0xC0000000, 0) ∧
    divResult 0x7FFFFFFF 0xFFFFFFFF = some (0x80000001, 0) ∧ divResult 0x80000001 0xFFFFFFFF = some (0x7FFFFFFF, 0) ∧
    divResult 0x80000000 0x7FFFFFFF = some (0xFFFFFFFF, 0xFFFFFFFF) := by decide
-- V-DIV-19, V-DIV-20, V-DIV-21: the three faults.
theorem test_div_faults : (after (execDiv 0 1 2 (operands 5 0))).map (·.status) = some (.halted .arithmeticFault) ∧
    (after (execDiv 0 1 2 (operands 0 0))).map (·.status) = some (.halted .arithmeticFault) ∧
    (after (execDiv 0 1 2 (operands 0x80000000 0xFFFFFFFF))).map (·.status) = some (.halted .arithmeticFault) := by decide

/-! ### HLT, the illegal opcode, exhaustion, truncation, the index check (44_halt.md, 40_step_decode.md) -/

-- S2: [0,0,0,0] advances the counter to exactly 1 and halts.
theorem test_hlt : endAfter (step (loaded [0, 0, 0, 0])) = some (1, .halted .hlt, [.haltNotice]) := by decide
-- S3, V-FETCH-3, V-FETCH-4.
theorem test_illegal : endAfter (step (loaded [200, 0, 0, 0])) = some (1, .halted .illegalOpcode, [.illegalNotice]) ∧
    endAfter (step (loaded [6])) = some (1, .halted .illegalOpcode, [.illegalNotice]) ∧
    endAfter (step (loaded [255, 1, 2, 3])) = some (1, .halted .illegalOpcode, [.illegalNotice]) := by decide
-- V-FETCH-1, V-RST-1.
theorem test_exhausted : endAfter (step State.reset) = some (0, .halted .exhausted, []) := by decide
-- V-FETCH-11, V-REG-9: truncation comes before the index check.
theorem test_truncated : endAfter (step (loaded [1, 5, 1])) = some (3, .halted .truncated, []) ∧
    endAfter (step (loaded [2, 40, 0])) = some (3, .halted .truncated, []) := by decide
-- V-REG-2, V-REG-8: no reduction modulo 32; the index check comes before the divisor check.
theorem test_invalid_register : endAfter (step (loaded [1, 32, 0, 9])) = some (4, .halted .invalidRegister, []) ∧
    regAfter 0 (step (loaded [1, 32, 0, 9])) = some 0 ∧
    endAfter (step (loaded [5, 0, 1, 40])) = some (4, .halted .invalidRegister, []) := by decide
-- V-REG-4: immediate bytes of 32 or more are legal.
theorem test_immediate_is_no_index : regAfter 0 (step (loaded [1, 0, 40, 200])) = some 0x28C8 := by decide

/-! ### The status register and the host operations -/

-- R120.
theorem test_status_codes : (Status.halted .arithmeticFault).causeField = 5 ∧ Status.running.causeField = 0 ∧
    (Status.halted .invalidRegister).causeField = 6 ∧ (Status.halted .hlt).haltedField = 1 := by decide
-- V-RST-2.
theorem test_host_load_and_step : (after (hostOps {} [.loadProgram [1, 0, 1, 244], .step] State.reset)).map
    (fun t => (t.readReg 0, t.pc, t.status)) = some (500, 4, .running) := by decide
-- V-RST-5: the second load wins; a Run of S8's kind ends by exhaustion.
theorem test_host_last_load_wins : (after (hostOps {} [.loadProgram [0], .loadProgram [1, 0, 0, 9], .run] State.reset)).map
    (fun t => (t.readReg 0, t.pc, t.status, t.notices)) = some (9, 4, .halted .exhausted, []) := by decide
-- V-RST-6: a load after a step is refused.
theorem test_host_late_load_refused :
    after (hostOps {} [.loadProgram [1, 0, 0, 9], .step, .loadProgram [0]] State.reset) = none := by decide
-- The table word stored where the machine fetches is what the next step runs.
theorem test_withFetchWord : regAfter 7 (step (State.reset.withFetchWord 32 0x01070064)) = some 100 ∧
    endAfter (step (State.reset.withFetchWord 8 0)) = some (1, .halted .hlt, [.haltNotice]) := by decide

/-! ### Witnesses: the hypotheses of the statements can be met, all of them together, clause by clause -/

/-- A DIV at `pc` with two operand values. -/
def divAtPc (v w : Word) : State := withTwo (loaded [5, 0, 1, 2]) 0 v 1 w

theorem witness_LoadProgram_longest_permitted : State.reset.IsResetState ∧
    ([6, 7, 8] : List Byte).length ≤ 2 ^ (Config.mk 2).pcw - 1 := ⟨⟨by decide, by decide, by decide, by decide⟩, by decide⟩
theorem witness_LoadProgram_outside_the_reset_state : ¬ ((loaded [1, 0, 0, 9]).setPc 4).IsResetState := by
  intro h
  have h0 : ((loaded [1, 0, 0, 9]).setPc 4).pc = 0 := h.2.1
  revert h0
  decide
theorem witness_OverlongProgram : State.reset.IsResetState ∧ 2 ^ (Config.mk 2).pcw - 1 < ([6, 7, 8, 9] : List Byte).length :=
  ⟨⟨by decide, by decide, by decide, by decide⟩, by decide⟩
theorem witness_OnlyResetLeavesHalted_no_load : (State.reset.halt .hlt).status = .halted .hlt ∧
    HostOp.reset ∉ [HostOp.step, HostOp.run] ∧ ∀ bytes, HostOp.loadProgram bytes ∉ [HostOp.step, HostOp.run] :=
  ⟨by decide, by decide, by simp⟩
theorem witness_OnlyResetLeavesHalted_load : (State.reset.halt .hlt).status = .halted .hlt ∧
    HostOp.reset ∉ [HostOp.step, HostOp.loadProgram [0]] ∧ HostOp.loadProgram [0] ∈ [HostOp.step, HostOp.loadProgram [0]] := by
  decide
theorem witness_EncodeOfDecode : decode [1, 31, 255, 0, 7] = .ok (.load 31 0xFF00, [7]) := by decide
theorem witness_StepAfterStoring : State.reset.prog.wf ∧ (loaded [1, 0, 0, 9]).prog.wf := by decide
theorem witness_StepRunsTheDecodedInstruction : (loaded [2, 0, 1, 2, 9]).status = .running ∧
    decode (loaded [2, 0, 1, 2, 9]).remaining = .ok (.add 0 1 2, [9]) := by decide
theorem witness_OpcodeFetch_end : (loaded []).status = .running ∧ (loaded []).len ≤ (loaded []).pc := by decide
theorem witness_OpcodeFetch_byte : (loaded [200]).status = .running ∧ (loaded [200]).pc < (loaded [200]).len := by decide
theorem witness_Truncated_no_operand : (loaded [1]).status = .running ∧ (loaded [1]).byteAt (loaded [1]).pc = some 1 ∧
    1 ≤ (1 : Byte).toNat ∧ (1 : Byte).toNat ≤ 5 ∧ (loaded [1]).len < (loaded [1]).pc + 4 := by decide
theorem witness_Truncated_two_operands : (loaded [5, 40, 1]).status = .running ∧
    (loaded [5, 40, 1]).byteAt (loaded [5, 40, 1]).pc = some 5 ∧ 1 ≤ (5 : Byte).toNat ∧ (5 : Byte).toNat ≤ 5 ∧
    (loaded [5, 40, 1]).len < (loaded [5, 40, 1]).pc + 4 := by decide
theorem witness_Truncated_complete : (loaded [5, 0, 1, 2]).status = .running ∧
    (loaded [5, 0, 1, 2]).byteAt (loaded [5, 0, 1, 2]).pc = some 5 ∧ 1 ≤ (5 : Byte).toNat ∧ (5 : Byte).toNat ≤ 5 ∧
    (loaded [5, 0, 1, 2]).pc + 4 ≤ (loaded [5, 0, 1, 2]).len := by decide
theorem witness_Illegal_lowest : (loaded [6]).status = .running ∧ (loaded [6]).byteAt (loaded [6]).pc = some 6 ∧
    6 ≤ (6 : Byte).toNat := by decide
theorem witness_Illegal_highest : (loaded [255]).status = .running ∧ (loaded [255]).byteAt (loaded [255]).pc = some 255 ∧
    6 ≤ (255 : Byte).toNat := by decide
theorem witness_HltStep : (loaded [0]).status = .running ∧ (loaded [0]).byteAt (loaded [0]).pc = some 0 := by decide
theorem witness_RegisterIndex_format_I : (loaded [1, 32, 0, 9]).status = .running ∧ (loaded [1, 32, 0, 9]).BytesAtPc 1 32 0 9 ∧
    32 ≤ (32 : Byte).toNat := ⟨by decide, ⟨by decide, by decide, by decide, by decide⟩, by decide⟩
theorem witness_RegisterIndex_format_R : (loaded [5, 0, 1, 255]).status = .running ∧ (loaded [5, 0, 1, 255]).BytesAtPc 5 0 1 255 ∧
    (5 : Byte) ≠ 1 ∧ 32 ≤ (255 : Byte).toNat := ⟨by decide, ⟨by decide, by decide, by decide, by decide⟩, by decide, by decide⟩
theorem witness_RegisterIndex_legal : (loaded [1, 31, 40, 200]).status = .running ∧
    (loaded [1, 31, 40, 200]).BytesAtPc 1 31 40 200 ∧
    ¬ (32 ≤ (31 : Byte).toNat ∨ ((1 : Byte) ≠ 1 ∧ (32 ≤ (40 : Byte).toNat ∨ 32 ≤ (200 : Byte).toNat))) :=
  ⟨by decide, ⟨by decide, by decide, by decide, by decide⟩, by decide⟩
-- StepWhileHaltedChangesNothing, CausesAreFoundInTheFixedOrder (first clause).
theorem witness_halted : (State.reset.halt .exhausted).status = .halted .exhausted := by decide
-- CausesAreFoundInTheFixedOrder (second clause).
theorem witness_running : State.reset.status = .running := by decide
-- Load, Add, Sub and Mul completion, OverflowWraps: the lowest and the highest index.
theorem witness_legal_indices : (0 : Byte).toNat < 32 ∧ (31 : Byte).toNat < 32 := by decide
theorem witness_InstructionWithAnIllegalIndex : State.reset.status = .running ∧ (Instr.add 0 32 1).wellFormed = false ∧
    (Instr.add 0 31 1).wellFormed = true := by decide
theorem witness_DivCompletes_next_to_the_fault : (0 : Byte).toNat < 32 ∧ (1 : Byte).toNat < 32 ∧ (31 : Byte).toNat < 32 ∧
    ¬ FaultingOperands ((operands 0x80000001 0xFFFFFFFF).readReg 0) ((operands 0x80000001 0xFFFFFFFF).readReg 1) := by decide
theorem witness_DivHalts_zero : (0 : Byte).toNat < 32 ∧ (1 : Byte).toNat < 32 ∧ (31 : Byte).toNat < 32 ∧
    FaultingOperands ((operands 5 0).readReg 0) ((operands 5 0).readReg 1) := by decide
theorem witness_DivHalts_overflow : (0 : Byte).toNat < 32 ∧ (1 : Byte).toNat < 32 ∧ (31 : Byte).toNat < 32 ∧
    FaultingOperands ((operands 0x80000000 0xFFFFFFFF).readReg 0) ((operands 0x80000000 0xFFFFFFFF).readReg 1) := by decide
theorem witness_LoadStep_truncated : (loaded [1, 31, 255]).status = .running ∧
    (loaded [1, 31, 255]).byteAt (loaded [1, 31, 255]).pc = some 1 ∧ (loaded [1, 31, 255]).len < (loaded [1, 31, 255]).pc + 4 := by
  decide
theorem witness_LoadStep_invalid : (loaded [1, 32, 0, 9]).status = .running ∧
    (loaded [1, 32, 0, 9]).byteAt (loaded [1, 32, 0, 9]).pc = some 1 ∧ (loaded [1, 32, 0, 9]).BytesAtPc 1 32 0 9 ∧
    32 ≤ (32 : Byte).toNat := ⟨by decide, by decide, ⟨by decide, by decide, by decide, by decide⟩, by decide⟩
theorem witness_LoadStep_completes : (loaded [1, 31, 255, 255]).status = .running ∧
    (loaded [1, 31, 255, 255]).byteAt (loaded [1, 31, 255, 255]).pc = some 1 ∧
    (loaded [1, 31, 255, 255]).BytesAtPc 1 31 255 255 ∧ (31 : Byte).toNat < 32 :=
  ⟨by decide, by decide, ⟨by decide, by decide, by decide, by decide⟩, by decide⟩
theorem witness_ArithmeticStep_add : (loaded [2, 0, 1, 31]).status = .running ∧
    (loaded [2, 0, 1, 31]).byteAt (loaded [2, 0, 1, 31]).pc = some 2 ∧ (loaded [2, 0, 1, 31]).BytesAtPc 2 0 1 31 ∧
    (31 : Byte).toNat < 32 := ⟨by decide, by decide, ⟨by decide, by decide, by decide, by decide⟩, by decide⟩
theorem witness_ArithmeticStep_sub_invalid : (loaded [3, 32, 1, 31]).status = .running ∧
    (loaded [3, 32, 1, 31]).byteAt (loaded [3, 32, 1, 31]).pc = some 3 ∧ (loaded [3, 32, 1, 31]).BytesAtPc 3 32 1 31 ∧
    32 ≤ (32 : Byte).toNat := ⟨by decide, by decide, ⟨by decide, by decide, by decide, by decide⟩, by decide⟩
theorem witness_ArithmeticStep_mul_truncated : (loaded [4, 0, 1]).status = .running ∧
    (loaded [4, 0, 1]).byteAt (loaded [4, 0, 1]).pc = some 4 ∧ (loaded [4, 0, 1]).len < (loaded [4, 0, 1]).pc + 4 := by decide
theorem witness_DivStep_truncated : (loaded [5, 0, 1]).status = .running ∧
    (loaded [5, 0, 1]).byteAt (loaded [5, 0, 1]).pc = some 5 ∧ (loaded [5, 0, 1]).len < (loaded [5, 0, 1]).pc + 4 := by decide
theorem witness_DivStep_invalid : (loaded [5, 0, 1, 32]).status = .running ∧
    (loaded [5, 0, 1, 32]).byteAt (loaded [5, 0, 1, 32]).pc = some 5 ∧ (loaded [5, 0, 1, 32]).BytesAtPc 5 0 1 32 ∧
    32 ≤ (32 : Byte).toNat := ⟨by decide, by decide, ⟨by decide, by decide, by decide, by decide⟩, by decide⟩
theorem witness_DivStep_completes : (divAtPc 0x80000000 1).status = .running ∧
    (divAtPc 0x80000000 1).byteAt (divAtPc 0x80000000 1).pc = some 5 ∧ (divAtPc 0x80000000 1).BytesAtPc 5 0 1 2 ∧
    ((divAtPc 0x80000000 1).readReg 1).toInt ≠ 0 ∧
    ¬ (((divAtPc 0x80000000 1).readReg 0).toInt = -2 ^ 31 ∧ ((divAtPc 0x80000000 1).readReg 1).toInt = -1) :=
  ⟨by decide, by decide, ⟨by decide, by decide, by decide, by decide⟩, by decide, by decide⟩
theorem witness_DivStep_zero_divisor : (divAtPc 0x80000000 0).status = .running ∧ (divAtPc 0x80000000 0).BytesAtPc 5 0 1 2 ∧
    ((divAtPc 0x80000000 0).readReg 1).toInt = 0 := ⟨by decide, ⟨by decide, by decide, by decide, by decide⟩, by decide⟩
theorem witness_DivStep_overflow : (divAtPc 0x80000000 0xFFFFFFFF).status = .running ∧
    (divAtPc 0x80000000 0xFFFFFFFF).BytesAtPc 5 0 1 2 ∧ ((divAtPc 0x80000000 0xFFFFFFFF).readReg 0).toInt = -2 ^ 31 ∧
    ((divAtPc 0x80000000 0xFFFFFFFF).readReg 1).toInt = -1 :=
  ⟨by decide, ⟨by decide, by decide, by decide, by decide⟩, by decide, by decide⟩
theorem witness_DivAliasing_destination_is_a_source : (0 : Byte).toNat < 32 ∧ (1 : Byte).toNat < 32 ∧
    ((0 : Byte) = 0 ∨ (0 : Byte) = 1) ∧ ¬ FaultingOperands ((operands 17 5).readReg 0) ((operands 17 5).readReg 1) := by decide
theorem witness_DivAliasing_itself : (0 : Byte).toNat < 32 ∧ (operands 0x80000000 0).readReg 0 ≠ 0 ∧
    (operands 0x80000000 0).readReg 1 = 0 := by decide
theorem witness_Frame : Instr.sub 0 1 31 = .load 31 0 ∨ Instr.sub 0 1 31 = .add 0 1 31 ∨ Instr.sub 0 1 31 = .sub 0 1 31 ∨
    Instr.sub 0 1 31 = .mul 0 1 31 := by decide
theorem witness_ReadNoOtherRegister : (operands 17 5).status = .running ∧ (31 : Byte).toNat < 32 ∧
    ((operands 17 5).x.set 9 4)[regSelect 0] = (operands 17 5).readReg (regSelect 0) ∧
    ((operands 17 5).x.set 9 4)[regSelect 1] = (operands 17 5).readReg (regSelect 1) := by decide
theorem witness_NoStepReadsAboveTheEnd : ∀ k, k < (loaded [7]).len → Memory.read [(0, 7), (5, 1)] k = (loaded [7]).prog.read k := by
  decide
theorem witness_ThePcNeverWraps : (loaded [1, 0, 0]).len ≤ (Config.mk 2).maxLen ∧ (loaded [1, 0, 0]).pc ≤ (loaded [1, 0, 0]).len := by
  decide
theorem witness_Inv_running : ((loaded [1, 0, 0, 9]).setPc 4).Inv :=
  ⟨by decide, by decide, by decide, by show 4 % 4 = 0; decide, by decide⟩
theorem witness_Inv_truncated : (((loaded [1, 0, 0, 9, 2]).setPc 5).halt .truncated).Inv :=
  ⟨by decide, by decide, by decide, ⟨by decide, by decide, 2, by decide, by decide, by decide⟩, by decide⟩
theorem witness_Reachable : (after (hostOps {} [.loadProgram [0], .run] State.reset)).map (·.notices) = some [.haltNotice] := by decide

end Sys2Proof.Tests
end

section
/-! The state rules of 10_state.md: the items after reset (R24) and how far `pc` moves in one step (R16). -/

namespace Sys2Proof.Machine

/-! ### Reset -/

/-- R24, R12: every general register reads zero after reset. -/
@[simp] theorem readReg_reset (i : Fin 32) : State.reset.readReg i = 0 := by
  simp [State.readReg, State.reset]

/-- R24, R33: after reset the program is empty, so no index has a byte. -/
@[simp] theorem byteAt_reset (k : Nat) : State.reset.byteAt k = none := by
  have hlen : ¬ k < State.reset.len := Nat.not_lt_zero k
  simp [State.byteAt, hlen]

/-- Settles O1: the registers and the program bytes by the two lemmas above, every other item by definition of the reset state. -/
theorem resetGivesEveryItemItsResetValue : Obligations.ResetGivesEveryItemItsResetValue :=
  ⟨readReg_reset, rfl, rfl, rfl, byteAt_reset, rfl, rfl, rfl⟩

/-! ### A step always ends -/

/-- Every instruction has a next state: each of the ways in which `exec` can answer is one. -/
theorem exec_answers_next (i : Instr) (s : State) : ∃ t, exec i s = .next t := by
  rcases exec_cases i s with ⟨-, h⟩ | ⟨-, h⟩ | ⟨-, -, h⟩ | ⟨-, -, _, _, h⟩ | ⟨-, -, _, _, _, h⟩ <;> exact ⟨_, h⟩

/-- R66, R74: every step has a next state, which it reaches in one of the nine ways of `StepEnds`. -/
theorem step_answers_next (s : State) : ∃ t, step s = .next t ∧ StepEnds s t := by
  have hnext : ∃ t, step s = .next t := by
    rcases step_cases s with ⟨_, -, halted⟩ | ⟨-, -, exhausted⟩ | ⟨-, -, -, hlt⟩ | ⟨-, -, -, illegal⟩ |
      ⟨-, -, -, -, -, truncated⟩ | ⟨-, -, -, -, operands⟩
    · exact ⟨_, halted⟩
    · exact ⟨_, exhausted⟩
    · exact hlt ▸ exec_answers_next _ _
    · exact ⟨_, illegal⟩
    · exact ⟨_, truncated⟩
    · exact operands ▸ exec_answers_next _ _
  obtain ⟨t, h⟩ := hnext
  exact ⟨t, h, step_ends s t h⟩

/-! ### The program counter -/

/-- R111: the notice and the halt of an illegal opcode leave `pc` where the fetch put it. -/
@[simp] theorem illegalOpcode_pc (s : State) : (illegalOpcode s).pc = s.pc := rfl

@[simp] theorem illegalOpcode_status (s : State) : (illegalOpcode s).status = .halted .illegalOpcode := rfl

/-- Settles O23, one case for each way a step can end. Only truncation leaves a range, since the bytes that exist end at `len`. -/
theorem netAdvanceOfPcByOutcome : Obligations.NetAdvanceOfPcByOutcome := by
  intro s
  obtain ⟨t, hstep, hends⟩ := step_answers_next s
  refine ⟨t, hstep, ?_⟩
  cases hends with
  | alreadyHalted c hs ht => simp [ht, hs]
  | exhausted hs hp ht => simp [ht, hs, hp]
  | hlt hs hp ho ht => simp [ht, hs]
  | illegal hs hp ho ht => simp [ht, hs]
  | truncated hs hp h1 h2 hl ht =>
    have hrange : s.pc + 1 ≤ s.len ∧ s.len ≤ s.pc + 3 := by omega
    simp [ht, hs, hrange]
  | invalidRegister hs hp h1 h2 hw ht => simp [ht, hs]
  | arithmeticFault hs hp ho hw hd ht => simp [ht, hs]
  | registerWritten hs hp h1 h2 hw r v ht => simp [ht, hs]
  | divided hs hp ho hw hd r v w ht => simp [ht, hs]

end Sys2Proof.Machine
end

section
/-! The encoding rules of 30_encoding.md: what the whole opcode byte selects (R49, R55), and the immediate of LOAD as the instruction
uses it (R50). -/

namespace Sys2Proof.Machine

/-! ### The opcode byte -/

/-- R50: the immediate is the 16-bit pattern of `256 × imm_hi + imm_lo`. -/
theorem joinImm_eq_ofNat (hi lo : Byte) : joinImm hi lo = BitVec.ofNat 16 (256 * hi.toNat + lo.toNat) := by
  rw [← joinImm_toNat, BitVec.ofNat_toNat, BitVec.setWidth_eq]

/-- Settles O9, one case for each class the opcode byte can select: a legal class fixes the byte, and the illegal class leaves
every byte from 6 on. -/
theorem opcodeByteSelectsTheInstruction : Obligations.OpcodeByteSelectsTheInstruction := by
  intro b0 o1 o2 o3 rest
  cases hclass : decodeOpcode b0 with
  | hlt =>
    obtain rfl := (decodeOpcode_hlt b0).1 hclass
    rfl
  | load =>
    obtain rfl := (decodeOpcode_load b0).1 hclass
    rw [← joinImm_eq_ofNat]
    rfl
  | add =>
    obtain rfl := (decodeOpcode_add b0).1 hclass
    rfl
  | sub =>
    obtain rfl := (decodeOpcode_sub b0).1 hclass
    rfl
  | mul =>
    obtain rfl := (decodeOpcode_mul b0).1 hclass
    rfl
  | div =>
    obtain rfl := (decodeOpcode_div b0).1 hclass
    rfl
  | illegal =>
    have hlarge : ∀ n < 6, b0.toNat ≠ n := fun n hn => Nat.ne_of_gt (hn.trans_le ((decodeOpcode_illegal b0).1 hclass))
    simp [decode, hclass, hlarge]

/-! ### The immediate of LOAD -/

/-- R50: zero extension leaves the upper half zero. -/
theorem zext32_upperHalf (v : Imm16) : (zext32 v).extractLsb' 16 16 = 0 := by
  apply BitVec.eq_of_toNat_eq
  have hv : v.toNat >>> 16 = 0 := by rw [Nat.shiftRight_eq_div_pow, Nat.div_eq_of_lt v.isLt]
  simp [BitVec.extractLsb'_toNat, zext32_toNat, hv]

/-- R50: a zero-extended immediate is never negative as a signed number. -/
theorem zext32_toInt (v : Imm16) : (zext32 v).toInt = v.toNat := by
  have hsmall : 2 * (zext32 v).toNat < 2 ^ 32 := by
    rw [zext32_toNat]
    omega
  rw [BitVec.toInt_eq_toNat_of_lt hsmall, zext32_toNat]

/-- R71: the write of the register `d` names, with `pc` advanced by `n`, changes nothing else. -/
theorem onlyRegisterWritten_setPc_writeReg (d : Byte) (n : Nat) (v : Word) (s : State) (hd : d.toNat < 32) :
    OnlyRegisterWritten d n s ((s.setPc (s.pc + n)).writeReg ⟨d.toNat, hd⟩ v) := by
  have hregs : SameRegsExcept d s ((s.setPc (s.pc + n)).writeReg ⟨d.toNat, hd⟩ v) := by
    intro j hj
    rw [readReg_writeReg_other _ _ _ _ (Fin.ne_of_val_ne hj)]
    exact readReg_congr _ _ _ rfl
  exact ⟨hregs, rfl, rfl, rfl, rfl, rfl, rfl, fun k => byteAt_congr _ _ k rfl rfl⟩

/-- R71: the write of the register `d` names changes nothing else. -/
theorem onlyRegisterWritten_writeReg (d : Byte) (v : Word) (s : State) (hd : d.toNat < 32) :
    OnlyRegisterWritten d 0 s (s.writeReg ⟨d.toNat, hd⟩ v) :=
  onlyRegisterWritten_setPc_writeReg d 0 v s hd

/-- R85: LOAD with a legal index writes the zero-extended immediate to it. -/
theorem exec_load_legal (d : Byte) (imm : Imm16) (s : State) (hd : d.toNat < 32) :
    exec (.load d imm) s = .next (s.writeReg ⟨d.toNat, hd⟩ (zext32 imm)) :=
  congrArg Host.Outcome.next (immediateForm_legal d (zext32 imm) s hd)

/-- Settles O31: the register reads back what LOAD wrote to it, and the three readings are those of the zero-extended immediate. -/
theorem loadCompletesWithTheZeroExtendedImmediate : Obligations.LoadCompletesWithTheZeroExtendedImmediate := by
  intro d hi lo s hd
  refine ⟨_, exec_load_legal d (joinImm hi lo) s hd, onlyRegisterWritten_writeReg d _ s hd, ?_⟩
  rw [readReg_writeReg_same]
  refine ⟨?value, zext32_upperHalf _, ?nonneg⟩
  case value => rw [zext32_toNat, joinImm_toNat]
  case nonneg => simp [zext32_toInt]

end Sys2Proof.Machine
end

section
/-! The step rules of 40_step_decode.md: the guarded fetches (R67, R68), the index check (R69), a Step while HALTED (R76) and
the load of a program (R65, R80). -/

namespace Sys2Proof.Machine

/-! ### A Step while HALTED -/

/-- R73: a state that has halted reports `done`. -/
theorem stepDone_of_halted (s : State) (c : Cause) (hs : s.status = .halted c) : stepDone s = true := by
  simp [stepDone, State.isHalted, hs]

/-- R65, R73: what the host operation Step replies when the step ends in `t`. -/
theorem hostOp_step (cfg : Config) (s t : State) (h : step s = .next t) :
    hostOp cfg .step s = .next ⟨t, some (stepDone t)⟩ := by
  simp [hostOp, reply, h]

/-- Settles O25: the step answers the state it began in, which reports `done`. -/
theorem stepWhileHaltedChangesNothing : Obligations.StepWhileHaltedChangesNothing := by
  intro cfg s c hs
  have hstep := step_halted s c hs
  exact ⟨hstep, stepDone_of_halted s c hs ▸ hostOp_step cfg s s hstep⟩

/-! ### The opcode fetch -/

/-- R129: a halt after `n` bytes were consumed writes nothing and emits nothing. -/
theorem haltedWith_setPc_halt (c : Cause) (n : Nat) (s : State) :
    HaltedWith c n [] s ((s.setPc (s.pc + n)).halt c) :=
  ⟨rfl, rfl, (List.append_nil _).symm, rfl, rfl, rfl, rfl, fun k => byteAt_congr _ _ k rfl rfl⟩

/-- R16, R67: a RUNNING step with a byte to fetch moves `pc` forward, however it ends. -/
theorem step_advances_pc (s : State) (hs : s.status = .running) (hp : s.pc < s.len) :
    ∃ t, step s = .next t ∧ s.pc + 1 ≤ t.pc := by
  obtain ⟨t, hstep, -, hadvance⟩ := netAdvanceOfPcByOutcome s
  refine ⟨t, hstep, ?_⟩
  have hadvance := hadvance hs
  split at hadvance <;> omega

/-- Settles O18, on whether `pc` is below `len`. -/
theorem opcodeFetchIsGuarded : Obligations.OpcodeFetchIsGuarded := by
  intro s hs
  constructor
  · intro hend
    exact ⟨fetch_end s hend, _, step_exhausted s hs hend, haltedWith_setPc_halt .exhausted 0 s⟩
  · intro hp
    exact ⟨s.prog.read s.pc, (byteAt_eq_some _ _ _).2 ⟨hp, rfl⟩, fetch_byte s hp, step_advances_pc s hs hp⟩

/-! ### The operand fetch and the index check -/

/-- R68: where an operand byte is missing, the bytes up to `len` are consumed and nothing is written. -/
theorem step_truncated_haltedWith (s : State) (b : Byte) (hs : s.status = .running) (hb : s.byteAt s.pc = some b)
    (h1 : 1 ≤ b.toNat) (h5 : b.toNat ≤ 5) (hl : s.len < s.pc + 4) :
    ∃ t, step s = .next t ∧ HaltedWith .truncated (s.len - s.pc) [] s t ∧ t.pc = t.len := by
  obtain ⟨hp, rfl⟩ := (byteAt_eq_some _ _ _).1 hb
  have hpc : s.pc + (s.len - s.pc) = s.len := by omega
  refine ⟨_, step_truncated s hs hp h1 h5 hl, ?_, rfl⟩
  have hhalt := haltedWith_setPc_halt .truncated (s.len - s.pc) s
  rwa [hpc] at hhalt

/-- R66, R69: with all four bytes of an instruction present the step consumes them; it halts with INVALID_REGISTER if the
instruction is ill-formed, and otherwise completes or halts with ARITHMETIC_FAULT. -/
theorem step_operands_ends (s : State) (hs : s.status = .running) (hp : s.pc + 4 ≤ s.len)
    (h1 : 1 ≤ (s.prog.read s.pc).toNat) (h5 : (s.prog.read s.pc).toNat ≤ 5) :
    ∃ t, step s = .next t ∧
      ((s.instrAtPc.wellFormed = false ∧ t = (s.setPc (s.pc + 4)).halt .invalidRegister) ∨
       (s.instrAtPc.wellFormed = true ∧ t.pc = s.pc + 4 ∧
        (t.status = .running ∨ t.status = .halted .arithmeticFault))) := by
  have hstep : step s = exec s.instrAtPc (s.setPc (s.pc + 4)) := step_operands s hs hp h1 h5
  rw [hstep]
  rcases exec_cases s.instrAtPc (s.setPc (s.pc + 4)) with ⟨hhlt, -⟩ | ⟨hw, invalid⟩ | ⟨-, hw, fault⟩ |
    ⟨hw, -, r, v, written⟩ | ⟨hw, -, r, v, w, divided⟩
  · exact absurd hhlt (instrOf_ne_hlt _ _ _ _)
  · exact ⟨_, invalid, .inl ⟨hw, rfl⟩⟩
  · exact ⟨_, fault, .inr ⟨hw, rfl, .inr rfl⟩⟩
  · exact ⟨_, written, .inr ⟨hw, rfl, .inl hs⟩⟩
  · exact ⟨_, divided, .inr ⟨hw, rfl, .inl hs⟩⟩

/-- Settles O19, on whether all four bytes of the instruction lie below `len`. -/
theorem truncatedInstructionHaltsWithItsBytesConsumed : Obligations.TruncatedInstructionHaltsWithItsBytesConsumed := by
  intro s b hs hb h1 h5
  refine ⟨step_truncated_haltedWith s b hs hb h1 h5, fun hp => ?_⟩
  obtain ⟨-, rfl⟩ := (byteAt_eq_some _ _ _).1 hb
  obtain ⟨t, hstep, ⟨-, rfl⟩ | ⟨-, hpc, hstatus⟩⟩ := step_operands_ends s hs hp h1 h5
  · exact ⟨_, hstep, by simp, rfl⟩
  · exact ⟨t, hstep, by rcases hstatus with h | h <;> simp [h], hpc⟩

/-- R48, R55: four bytes at `pc` make the instruction that `pc` stands at. -/
theorem instrAtPc_of_bytesAtPc (s : State) (b0 o1 o2 o3 : Byte) (h : s.BytesAtPc b0 o1 o2 o3) :
    s.pc + 4 ≤ s.len ∧ s.prog.read s.pc = b0 ∧ s.instrAtPc = instrOf b0 o1 o2 o3 := by
  simp only [State.BytesAtPc, byteAt_eq_some] at h
  obtain ⟨⟨-, rfl⟩, ⟨-, rfl⟩, ⟨-, rfl⟩, hp, rfl⟩ := h
  exact ⟨hp, rfl, rfl⟩

/-- Settles O22: truncation comes first; with all bytes present the bytes in question are those that make the instruction
ill-formed. -/
theorem registerIndexOutOfRangeHaltsTheStep : Obligations.RegisterIndexOutOfRangeHaltsTheStep := by
  constructor
  · intro s b0 hs hb h1 h5 hl
    obtain ⟨t, hstep, ⟨hstatus, -⟩, -⟩ := step_truncated_haltedWith s b0 hs hb h1 h5 hl
    exact ⟨t, hstep, hstatus⟩
  · intro s b0 o1 o2 o3 hs hbytes h1 h5
    obtain ⟨hp, rfl, hi⟩ := instrAtPc_of_bytesAtPc s b0 o1 o2 o3 hbytes
    obtain ⟨t, hstep, hends⟩ := step_operands_ends s hs hp h1 h5
    rw [← instrOf_wellFormed _ o1 o2 o3 h1 h5, ← hi]
    rcases hends with ⟨hw, rfl⟩ | ⟨hw, -, hstatus⟩
    · exact ⟨fun _ => ⟨_, hstep, haltedWith_setPc_halt .invalidRegister 4 s⟩, fun hlegal => absurd hw hlegal⟩
    · exact ⟨fun hillegal => by simp [hw] at hillegal,
        fun _ => ⟨t, hstep, by rcases hstatus with h | h <;> simp [h]⟩⟩

/-! ### LoadProgram -/

/-- R80: the model's test of the reset state is the rule's, said register by register. -/
theorem inResetState_iff (s : State) : s.inResetState = true ↔ s.IsResetState := by
  have hregs : s.x = Vector.replicate 32 0 ↔ ∀ i, s.readReg i = 0 := by
    constructor
    · intro h i
      simp [State.readReg, h]
    · intro h
      ext1 i hi
      rw [Vector.getElem_replicate]
      exact h ⟨i, hi⟩
  rw [State.inResetState, decide_eq_true_iff, hregs]
  rfl

/-- R65: what the host operation LoadProgram replies; it has no `done` output. -/
theorem hostOp_loadProgram (cfg : Config) (bytes : List Byte) (s : State) :
    hostOp cfg (.loadProgram bytes) s = reply (fun _ => none) (loadProgram cfg bytes s) := rfl

/-- R80: no load reads the program that was loaded before. -/
theorem loadProgram_setProgram (cfg : Config) (bytes : List Byte) (s : State) (m : Memory) (n : Nat) :
    loadProgram cfg bytes (s.setProgram m n) = loadProgram cfg bytes s := rfl

/-- R65, R80: a permitted load. -/
theorem loadProgram_permitted (cfg : Config) (bytes : List Byte) (s : State) (hs : s.IsResetState)
    (hlen : bytes.length ≤ cfg.maxLen) :
    loadProgram cfg bytes s = .next (s.setProgram (Memory.writeBytes [] 0 bytes) bytes.length) := by
  simp [loadProgram, (inResetState_iff s).2 hs, Nat.not_lt.2 hlen]

/-- R80: a load outside the reset state. -/
theorem loadProgram_outsideResetState (cfg : Config) (bytes : List Byte) (s : State) (hs : ¬ s.IsResetState) :
    loadProgram cfg bytes s = .refused .loadOutsideResetState := by
  rw [← inResetState_iff, Bool.not_eq_true] at hs
  simp [loadProgram, hs]

/-- R65, R33: the bytes loaded are the bytes of the program. -/
theorem byteAt_setProgram_writeBytes (s : State) (bytes : List Byte) (k : Nat) :
    (s.setProgram (Memory.writeBytes [] 0 bytes) bytes.length).byteAt k = bytes[k]? := by
  by_cases hk : k < bytes.length
  · have hread := Memory.read_writeBytes [] reset_prog_wf 0 bytes k hk
    rw [Nat.zero_add] at hread
    rw [List.getElem?_eq_getElem hk, byteAt_eq_some]
    exact ⟨hk, hread⟩
  · simp [State.byteAt, hk]

/-- Settles O4: the load replaces the program alone, and the test of the reset state does not look at it. -/
theorem loadProgramStoresTheBytesInTheResetStateOnly : Obligations.LoadProgramStoresTheBytesInTheResetStateOnly := by
  intro cfg bytes s
  constructor
  · intro hs hlen
    refine ⟨s.setProgram (Memory.writeBytes [] 0 bytes) bytes.length, ?_, rfl, byteAt_setProgram_writeBytes s bytes,
      rfl, rfl, rfl, rfl, rfl, hs, fun later => ?_⟩
    · rw [hostOp_loadProgram, loadProgram_permitted cfg bytes s hs hlen]
      rfl
    · rw [hostOp_loadProgram, hostOp_loadProgram, loadProgram_setProgram]
  · intro hs
    rw [hostOp_loadProgram, loadProgram_outsideResetState cfg bytes s hs]
    rfl

end Sys2Proof.Machine
end

section
/-! LOAD as a whole step of 41_load.md (R85). -/

namespace Sys2Proof.Machine

/-- R66: with its four bytes present, a step runs the instruction they make with `pc` past them. -/
theorem step_of_bytesAtPc (s : State) (b0 o1 o2 o3 : Byte) (hs : s.status = .running) (hbytes : s.BytesAtPc b0 o1 o2 o3)
    (h1 : 1 ≤ b0.toNat) (h5 : b0.toNat ≤ 5) :
    step s = exec (instrOf b0 o1 o2 o3) (s.setPc (s.pc + 4)) := by
  obtain ⟨hp, rfl, hi⟩ := instrAtPc_of_bytesAtPc s b0 o1 o2 o3 hbytes
  rw [← hi]
  exact step_operands s hs hp h1 h5

/-- R47, R66: with the four bytes of a LOAD present, a step runs that LOAD with `pc` past them. -/
theorem step_load (s : State) (d hi lo : Byte) (hs : s.status = .running) (hbytes : s.BytesAtPc 1 d hi lo) :
    step s = exec (.load d (joinImm hi lo)) (s.setPc (s.pc + 4)) :=
  step_of_bytesAtPc s 1 d hi lo hs hbytes (by decide) (by decide)

/-- R85: LOAD with an index that names no register halts. -/
theorem exec_load_illegal (d : Byte) (imm : Imm16) (s : State) (hd : 32 ≤ d.toNat) :
    exec (.load d imm) s = .next (s.halt .invalidRegister) :=
  congrArg Host.Outcome.next (immediateForm_illegal d (zext32 imm) s hd)

/-- Settles O38: a missing operand byte truncates the step; with all four bytes present it is the LOAD they make, which the index
byte `d` either halts or sends to the register it names. -/
theorem loadStepLaw : Obligations.LoadStepLaw := by
  intro s hs hopcode
  constructor
  case left =>
    intro hshort
    obtain ⟨t, hstep, hhalted, -⟩ := step_truncated_haltedWith s 1 hs hopcode (by decide) (by decide) hshort
    exact ⟨t, hstep, hhalted⟩
  case right =>
    intro d hi lo hbytes
    rw [step_load s d hi lo hs hbytes]
    constructor
    case left =>
      intro hillegal
      exact ⟨_, exec_load_illegal d _ _ hillegal, haltedWith_setPc_halt .invalidRegister 4 s⟩
    case right =>
      intro hd
      refine ⟨_, exec_load_legal d _ _ hd, onlyRegisterWritten_setPc_writeReg d 4 _ s hd, ?_⟩
      rw [readReg_writeReg_same, zext32_toNat, joinImm_toNat]

end Sys2Proof.Machine
end

section
/-! ADD, SUB and MUL as whole steps of 42_arith.md (R90 to R93), and the wrap (R94, decision D1). -/

namespace Sys2Proof.Machine

/-! ### The shared form -/

/-- R91: ADD is the shared form at the sum. -/
theorem exec_add (a b d : Byte) (s : State) :
    exec (.add a b d) s = .next (registerForm a b d (writeResult (· + ·)) s) := rfl

/-- R92: SUB is the shared form at the difference, first source minus second. -/
theorem exec_sub (a b d : Byte) (s : State) :
    exec (.sub a b d) s = .next (registerForm a b d (writeResult (· - ·)) s) := rfl

/-- R93: MUL is the shared form at the product. -/
theorem exec_mul (a b d : Byte) (s : State) :
    exec (.mul a b d) s = .next (registerForm a b d (writeResult (· * ·)) s) := rfl

/-- R90: with legal indices the wrapped result goes to the register `d` names. -/
theorem registerForm_writeResult_legal (op : Int → Int → Int) (a b d : Byte) (s : State)
    (ha : a.toNat < 32) (hb : b.toNat < 32) (hd : d.toNat < 32) :
    registerForm a b d (writeResult op) s = s.writeReg ⟨d.toNat, hd⟩
      (wrap32 (op (s.readReg ⟨a.toNat, ha⟩).toInt (s.readReg ⟨b.toNat, hb⟩).toInt)) := by
  rw [registerForm_legal a b d _ s ha hb hd, writeResult, signed_eq_toInt, signed_eq_toInt]

/-! ### The whole step -/

/-- R91, R92, R93: the exact operation that the opcode byte 2, 3 or 4 stands for. -/
def arithOp (b0 : Byte) (m n : Int) : Int :=
  if b0 = 2 then m + n else if b0 = 3 then m - n else m * n

/-- R48, R90: an opcode byte 2, 3 or 4 makes an instruction of the shared form with its own operation. -/
theorem exec_instrOf_arith (b0 a b d : Byte) (s : State) (hop : b0 = 2 ∨ b0 = 3 ∨ b0 = 4) :
    exec (instrOf b0 a b d) s = .next (registerForm a b d (writeResult (arithOp b0)) s) := by
  rcases hop with rfl | rfl | rfl
  · exact exec_add a b d s
  · exact exec_sub a b d s
  · exact exec_mul a b d s

/-- Settles O39: a missing operand byte truncates the step; with all four bytes present it is the shared form at the opcode's operation,
which the index check either halts or lets write the register `d` names. -/
theorem arithmeticStepLaw : Obligations.ArithmeticStepLaw := by
  intro s b0 hs hopcode hop
  have hrange : 1 ≤ b0.toNat ∧ b0.toNat ≤ 5 := by rcases hop with rfl | rfl | rfl <;> decide
  obtain ⟨h1, h5⟩ := hrange
  constructor
  case left =>
    intro hshort
    obtain ⟨t, hstep, hhalted, -⟩ := step_truncated_haltedWith s b0 hs hopcode h1 h5 hshort
    exact ⟨t, hstep, hhalted⟩
  case right =>
    intro a b d hbytes
    rw [step_of_bytesAtPc s b0 a b d hs hbytes h1 h5, exec_instrOf_arith b0 a b d _ hop]
    constructor
    case left =>
      intro hillegal
      rw [registerForm_illegal a b d _ _ hillegal]
      exact ⟨_, rfl, haltedWith_setPc_halt .invalidRegister 4 s⟩
    case right =>
      intro ha hb hd
      rw [registerForm_writeResult_legal _ a b d _ ha hb hd]
      refine ⟨_, rfl, onlyRegisterWritten_setPc_writeReg d 4 _ s hd, ?_⟩
      rw [readReg_writeReg_same]
      exact wrap32_toNat _

/-! ### The wrap -/

/-- R6: the signed and the unsigned reading of a word differ by a multiple of 2^32. -/
theorem toInt_modEq_toNat (v : Word) : v.toInt ≡ v.toNat [ZMOD 2 ^ 32] := by
  rw [BitVec.toInt_eq_toNat_bmod]
  exact Int.bmod_emod

/-- R6: the pattern of an integer depends on its residue modulo 2^32 alone. -/
theorem wrap32_congr {m n : Int} (h : m ≡ n [ZMOD 2 ^ 32]) : wrap32 m = wrap32 n :=
  congrArg (fun r : Int => BitVec.ofNat 32 r.toNat) h

/-- R94: where the operation respects residues modulo 2^32, the instruction completes with the low 32 bits of the exact result, of the
signed and of the unsigned readings alike. -/
theorem registerForm_writeResult_wraps (op : Int → Int → Int) (a b d : Byte) (s : State)
    (hop : ∀ {m m' n n' : Int}, m ≡ m' [ZMOD 2 ^ 32] → n ≡ n' [ZMOD 2 ^ 32] → op m n ≡ op m' n' [ZMOD 2 ^ 32])
    (ha : a.toNat < 32) (hb : b.toNat < 32) (hd : d.toNat < 32) :
    ∃ t : State, Host.Outcome.next (registerForm a b d (writeResult op) s) = (.next t : Result) ∧ t.status = s.status ∧
      t.readReg ⟨d.toNat, hd⟩ = BitVec.ofInt 32 (op (s.readReg ⟨a.toNat, ha⟩).toInt (s.readReg ⟨b.toNat, hb⟩).toInt) ∧
      t.readReg ⟨d.toNat, hd⟩ = BitVec.ofInt 32 (op (s.readReg ⟨a.toNat, ha⟩).toNat (s.readReg ⟨b.toNat, hb⟩).toNat) := by
  rw [registerForm_writeResult_legal op a b d s ha hb hd]
  refine ⟨_, rfl, rfl, ?signed, ?unsigned⟩ <;> rw [readReg_writeReg_same, ← wrap32_eq_ofInt]
  case unsigned => exact wrap32_congr (hop (toInt_modEq_toNat _) (toInt_modEq_toNat _))

/-- Settles O40: sum, difference and product respect residues, so the two readings of the operands give the same pattern. -/
theorem overflowWrapsWhicheverWayTheOperandsAreRead : Obligations.OverflowWrapsWhicheverWayTheOperandsAreRead := by
  intro a b d s ha hb hd
  rw [exec_add, exec_sub, exec_mul]
  exact ⟨registerForm_writeResult_wraps (· + ·) a b d s Int.ModEq.add ha hb hd,
    registerForm_writeResult_wraps (· - ·) a b d s Int.ModEq.sub ha hb hd,
    registerForm_writeResult_wraps (· * ·) a b d s Int.ModEq.mul ha hb hd⟩

end Sys2Proof.Machine
end

section
/-! DIV of 43_div.md: the whole step with the rounding law (R100 to R104), and the destination as a source (R105). -/

namespace Sys2Proof.Machine

/-! ### Quotient and remainder as words -/

/-- R101: the quotient as a word is Lean's signed division. -/
theorem wrap32_quotient (v w : Word) : wrap32 (quotient (signed v) (signed w)) = v.sdiv w := by
  apply BitVec.eq_of_toInt_eq
  rw [wrap32_eq_ofInt, BitVec.toInt_ofInt, BitVec.toInt_sdiv, quotient, signed_eq_toInt, signed_eq_toInt]

/-- R101: the remainder as a word is Lean's signed remainder. -/
theorem wrap32_remainder (v w : Word) : wrap32 (remainder (signed v) (signed w)) = v.srem w := by
  rw [remainder_eq_tmod, signed_eq_toInt, signed_eq_toInt, wrap32_eq_ofInt, ← BitVec.toInt_srem, BitVec.ofInt_toInt]

/-- R101, R103: off the overflow the quotient fits a word, so the register reads as the exact quotient. -/
theorem toInt_sdiv_of_not_faulting (v w : Word) (h : ¬ FaultingOperands v w) :
    (v.sdiv w).toInt = v.toInt.tdiv w.toInt := by
  apply BitVec.toInt_sdiv_of_ne_or_ne
  by_contra hoverflow
  obtain ⟨rfl, rfl⟩ : v = BitVec.intMin 32 ∧ w = -1#32 := by simpa only [not_or, not_not] using hoverflow
  exact h (.inr (by decide))

/-- R104: a word's unsigned reading is that of its signed one. -/
theorem toNat_eq_unsignedReading (v : Word) : (v.toNat : Int) = unsignedReading v.toInt := by
  have hv := v.isLt
  rw [unsignedReading, BitVec.toInt_eq_toNat_cond]
  split <;> split <;> omega

/-- R101: the remainder is smaller than the divisor. -/
theorem natAbs_tmod_lt (n m : Int) (hm : m ≠ 0) : (n.tmod m).natAbs < m.natAbs := by
  rw [Int.natAbs_tmod]
  exact Nat.mod_lt _ (Int.natAbs_pos.2 hm)

/-- R101: the remainder is zero or has the sign of the dividend. -/
theorem tmod_eq_zero_or_sign (n m : Int) : n.tmod m = 0 ∨ (n.tmod m).sign = n.sign := by
  rw [Int.sign_tmod]
  by_cases hdvd : m ∣ n
  · exact .inl (Int.tmod_eq_zero_of_dvd hdvd)
  · exact .inr (if_neg hdvd)

/-! ### What DIV does -/

/-- R100: DIV with an index that names no register halts. -/
theorem exec_div_illegal (a b d : Byte) (s : State) (h : 32 ≤ a.toNat ∨ 32 ≤ b.toNat ∨ 32 ≤ d.toNat) :
    exec (.div a b d) s = .next (s.halt .invalidRegister) :=
  congrArg Host.Outcome.next (registerForm_illegal a b d finishDiv s h)

section LegalIndices
variable (a b d : Byte) (s : State) (ha : a.toNat < 32) (hb : b.toNat < 32) (hd : d.toNat < 32)

/-- R100: DIV with legal indices is `finishDiv` of the old operand values. -/
theorem exec_div_legal : exec (.div a b d) s =
    .next (finishDiv (s.readReg ⟨a.toNat, ha⟩) (s.readReg ⟨b.toNat, hb⟩) ⟨d.toNat, hd⟩ s) :=
  congrArg Host.Outcome.next (registerForm_legal a b d finishDiv s ha hb hd)

include hd in
/-- R102, R103: DIV on faulting operands halts. -/
theorem exec_div_faulting (h : FaultingOperands (s.readReg ⟨a.toNat, ha⟩) (s.readReg ⟨b.toNat, hb⟩)) :
    exec (.div a b d) s = .next (s.halt .arithmeticFault) := by
  rw [exec_div_legal a b d s ha hb hd, finishDiv, if_pos ((divFaults_iff _ _).2 h)]

/-- R100, R101: DIV on all other operands writes the quotient to the register `d` names and the remainder to `rem`. -/
theorem exec_div_completes (h : ¬ FaultingOperands (s.readReg ⟨a.toNat, ha⟩) (s.readReg ⟨b.toNat, hb⟩)) :
    exec (.div a b d) s = .next
      ((s.writeReg ⟨d.toNat, hd⟩ ((s.readReg ⟨a.toNat, ha⟩).sdiv (s.readReg ⟨b.toNat, hb⟩))).setRem
        ((s.readReg ⟨a.toNat, ha⟩).srem (s.readReg ⟨b.toNat, hb⟩))) := by
  rw [exec_div_legal a b d s ha hb hd, finishDiv, if_neg (mt (divFaults_iff _ _).1 h), wrap32_quotient,
    wrap32_remainder]

end LegalIndices

/-- R18: a register reads the same whatever is in `rem`. -/
@[simp] theorem readReg_setRem (s : State) (v : Word) (i : Fin 32) : (s.setRem v).readReg i = s.readReg i := rfl

/-- R100: the two writes of DIV, with `pc` advanced by `n`, change nothing else. -/
theorem onlyRegisterAndRemWritten_setPc_writeReg_setRem (d : Byte) (n : Nat) (v w : Word) (s : State)
    (hd : d.toNat < 32) :
    OnlyRegisterAndRemWritten d n s (((s.setPc (s.pc + n)).writeReg ⟨d.toNat, hd⟩ v).setRem w) := by
  obtain ⟨hregs, -, hpc, hstatus, hnotices, hprog⟩ := onlyRegisterWritten_setPc_writeReg d n v s hd
  exact ⟨hregs, hpc, hstatus, hnotices, hprog⟩

/-! ### The whole step -/

/-- R48, R66: with the four bytes of a DIV present, a step runs that DIV with `pc` past them. -/
theorem step_div (s : State) (a b d : Byte) (hs : s.status = .running) (hbytes : s.BytesAtPc 5 a b d) :
    step s = exec (.div a b d) (s.setPc (s.pc + 4)) :=
  step_of_bytesAtPc s 5 a b d hs hbytes (by decide) (by decide)

/-- R102, R103: a DIV step on faulting operands halts with all four bytes consumed. -/
theorem step_div_faulting (s : State) (a b d : Byte) (hs : s.status = .running) (hbytes : s.BytesAtPc 5 a b d)
    (ha : a.toNat < 32) (hb : b.toNat < 32) (hd : d.toNat < 32)
    (h : FaultingOperands (s.readReg ⟨a.toNat, ha⟩) (s.readReg ⟨b.toNat, hb⟩)) :
    ∃ t, step s = .next t ∧ HaltedWith .arithmeticFault 4 [] s t := by
  rw [step_div s a b d hs hbytes]
  exact ⟨_, exec_div_faulting a b d _ ha hb hd h, haltedWith_setPc_halt .arithmeticFault 4 s⟩

/-- Settles O41: a missing operand byte truncates the step; with all four bytes present it is the DIV they make, which the index
check or the operands halt, or which completes with the truncating quotient and remainder. -/
theorem divStepLaw : Obligations.DivStepLaw := by
  intro s hs hopcode
  constructor
  case left =>
    intro hshort
    obtain ⟨t, hstep, hhalted, -⟩ := step_truncated_haltedWith s 5 hs hopcode (by decide) (by decide) hshort
    exact ⟨t, hstep, hhalted⟩
  case right =>
    intro a b d hbytes
    constructor
    case left =>
      intro hillegal
      rw [step_div s a b d hs hbytes]
      exact ⟨_, exec_div_illegal a b d _ hillegal, haltedWith_setPc_halt .invalidRegister 4 s⟩
    case right =>
      rintro ha hb hd _ _ rfl rfl
      have hfault := step_div_faulting s a b d hs hbytes ha hb hd
      refine ⟨fun hzero => hfault (.inl hzero), fun hmin hneg => hfault (.inr ⟨hmin, hneg⟩), fun hm hov => ?_⟩
      have hok : ¬ FaultingOperands (s.readReg ⟨a.toNat, ha⟩) (s.readReg ⟨b.toNat, hb⟩) := not_or.2 ⟨hm, hov⟩
      rw [step_div s a b d hs hbytes]
      refine ⟨_, _, _, exec_div_completes a b d _ ha hb hd hok,
        onlyRegisterAndRemWritten_setPc_writeReg_setRem d 4 _ _ s hd, ?quotient, BitVec.toInt_srem _ _, ?unsigned, rfl,
        (Int.mul_tdiv_add_tmod _ _).symm, natAbs_tmod_lt _ _ hm, tmod_eq_zero_or_sign _ _⟩
      case quotient =>
        rw [readReg_setRem, readReg_writeReg_same]
        exact toInt_sdiv_of_not_faulting _ _ hok
      case unsigned =>
        rw [toNat_eq_unsignedReading]
        exact congrArg unsignedReading (BitVec.toInt_srem _ _)

/-! ### Aliasing -/

/-- R102, R103: a word divided by itself faults only if it is zero. -/
theorem faultingOperands_self_iff (v : Word) : FaultingOperands v v ↔ v = 0 := by
  have hzero : v.toInt = 0 ↔ v = 0 := BitVec.toInt_inj (y := 0)
  have hnoOverflow : ¬ (v.toInt = -2 ^ 31 ∧ v.toInt = -1) := by omega
  rw [FaultingOperands, or_iff_left hnoOverflow, hzero]

/-- Settles O42: the words DIV writes are functions of the operand values of the state it begins in, whichever register `d` names;
at two equal operands they are 1 and 0. -/
theorem divAliasingUsesTheOldValues : Obligations.DivAliasingUsesTheOldValues := by
  intro a b d s ha hb hd
  refine ⟨fun _ hok => ?oldValues, fun hne => ?itself, fun hzero => ?fault⟩
  case oldValues =>
    refine ⟨_, exec_div_completes a b d s ha hb hd hok, ?_, BitVec.toInt_srem _ _⟩
    rw [readReg_setRem, readReg_writeReg_same, toInt_sdiv_of_not_faulting _ _ hok]
  case itself =>
    have hok := mt (faultingOperands_self_iff _).1 hne
    refine ⟨_, exec_div_completes a a d s ha ha hd hok, ?_, BitVec.srem_self⟩
    rw [readReg_setRem, readReg_writeReg_same, BitVec.sdiv_self]
    exact if_neg (by simpa using hne)
  case fault =>
    exact ⟨_, exec_div_faulting a a d s ha ha hd ((faultingOperands_self_iff _).2 hzero),
      haltedWith_setPc_halt .arithmeticFault 0 s⟩

end Sys2Proof.Machine
end

section
/-! HLT as a whole step of 44_halt.md (R110). -/

namespace Sys2Proof.Machine

/-- R78, R129: a notice and a halt after `n` bytes were consumed write nothing else and emit that notice alone. -/
theorem haltedWith_setPc_notify_halt (c : Cause) (n : Nat) (note : Notice) (s : State) :
    HaltedWith c n [note] s (((s.setPc (s.pc + n)).notify note).halt c) :=
  ⟨rfl, rfl, rfl, rfl, rfl, rfl, rfl, fun k => byteAt_congr _ _ k rfl rfl⟩

/-- R110: HLT emits its notice and halts. -/
theorem exec_hlt (s : State) : exec .hlt s = .next ((s.notify .haltNotice).halt .hlt) := rfl

/-- Settles O21: a byte 0 at `pc` is a whole HLT, so the step runs it with `pc` past that byte and looks at no byte after it. -/
theorem hltStepHaltsWithNotice : Obligations.HltStepHaltsWithNotice := by
  intro s hs hopcode
  obtain ⟨hp, hzero⟩ := (byteAt_eq_some _ _ _).1 hopcode
  have hstep : step s = exec .hlt (s.setPc (s.pc + 1)) := step_hlt s hs hp hzero
  exact ⟨_, hstep.trans (exec_hlt _), haltedWith_setPc_notify_halt .hlt 1 .haltNotice s⟩

end Sys2Proof.Machine
end

section
/-! The order of the causes in 60_exceptions.md (R128, decision D12). -/

namespace Sys2Proof.Machine

/-- R69, R128: the index check of the instruction at `pc`, on the numbers its bytes stand for. -/
theorem instrAtPc_illFormed_iff (s : State) (h1 : 1 ≤ (s.prog.read s.pc).toNat) (h5 : (s.prog.read s.pc).toNat ≤ 5) :
    s.instrAtPc.wellFormed = false ↔ 32 ≤ (s.prog.read (s.pc + 1)).toNat ∨ ((s.prog.read s.pc).toNat ≠ 1 ∧
      (32 ≤ (s.prog.read (s.pc + 2)).toNat ∨ 32 ≤ (s.prog.read (s.pc + 3)).toNat)) := by
  have hload : (s.prog.read s.pc).toNat = 1 ↔ s.prog.read s.pc = 1 := BitVec.toNat_inj (y := 1)
  rw [State.instrAtPc, instrOf_wellFormed _ _ _ _ h1 h5, ne_eq, ne_eq, hload]

/-- R128, the three causes found before any operand is fetched: none of them applies to an opcode byte 1 to 5 that lies inside the
program. -/
theorem no_opcode_cause (s : State) (hp : s.pc < s.len) (h1 : 1 ≤ (s.prog.read s.pc).toNat)
    (h5 : (s.prog.read s.pc).toNat ≤ 5) :
    ¬ s.len ≤ s.pc ∧ (s.prog.read s.pc).toNat ≠ 0 ∧ ¬ 6 ≤ (s.prog.read s.pc).toNat := by omega

/-- R128, the five causes found before the instruction executes: none of them applies where all four bytes of a legal instruction are
present. -/
theorem no_cause_before_execution (s : State) (hp : s.pc + 4 ≤ s.len) (h1 : 1 ≤ (s.prog.read s.pc).toNat)
    (h5 : (s.prog.read s.pc).toNat ≤ 5) (hw : s.instrAtPc.wellFormed = true) :
    ¬ s.len ≤ s.pc ∧ (s.prog.read s.pc).toNat ≠ 0 ∧ ¬ 6 ≤ (s.prog.read s.pc).toNat ∧ ¬ s.len < s.pc + 4 ∧
      ¬ (32 ≤ (s.prog.read (s.pc + 1)).toNat ∨ ((s.prog.read s.pc).toNat ≠ 1 ∧
        (32 ≤ (s.prog.read (s.pc + 2)).toNat ∨ 32 ≤ (s.prog.read (s.pc + 3)).toNat))) := by
  obtain ⟨hend, hzero, hlegal⟩ := no_opcode_cause s (by omega) h1 h5
  exact ⟨hend, hzero, hlegal, Nat.not_lt.2 hp, fun hill => by simp [(instrAtPc_illFormed_iff s h1 h5).2 hill] at hw⟩

/-- Settles O24, one case for each way a step can end: what is known of that end refutes the conditions of the causes before its own,
and meets its own. -/
theorem causesAreFoundInTheFixedOrder : Obligations.CausesAreFoundInTheFixedOrder := by
  refine ⟨fun s c hs => ⟨s, step_halted s c hs, hs⟩, fun s hs => ?_⟩
  obtain ⟨t, hstep, hends⟩ := step_answers_next s
  refine ⟨t, hstep, ?_⟩
  cases hends with
  | alreadyHalted c hc ht => simp [hs] at hc
  | exhausted _ hp ht => rw [if_pos hp, ht, halt_status]
  | hlt _ hp ho ht =>
    have hzero : (s.prog.read s.pc).toNat = 0 := congrArg BitVec.toNat ho
    rw [if_neg (Nat.not_le.2 hp), if_pos hzero, ht, halt_status]
  | illegal _ hp ho ht =>
    rw [if_neg (Nat.not_le.2 hp), if_neg (by omega), if_pos ho, ht, illegalOpcode_status]
  | truncated _ hp h1 h5 hl ht =>
    obtain ⟨hend, hzero, hlegal⟩ := no_opcode_cause s hp h1 h5
    rw [if_neg hend, if_neg hzero, if_neg hlegal, if_pos hl, ht, halt_status]
  | invalidRegister _ hp h1 h5 hw ht =>
    obtain ⟨hend, hzero, hlegal⟩ := no_opcode_cause s (by omega) h1 h5
    rw [if_neg hend, if_neg hzero, if_neg hlegal, if_neg (Nat.not_lt.2 hp),
      if_pos ((instrAtPc_illFormed_iff s h1 h5).1 hw), ht, halt_status]
  | arithmeticFault _ hp ho hw hd ht =>
    have hdiv : (s.prog.read s.pc).toNat = 5 := congrArg BitVec.toNat ho
    obtain ⟨hend, hzero, hlegal, hl, hindex⟩ := no_cause_before_execution s hp (by omega) (by omega) hw
    rw [if_neg hend, if_neg hzero, if_neg hlegal, if_neg hl, if_neg hindex, if_pos ⟨hdiv, (divFaults_iff _ _).1 hd⟩, ht,
      halt_status]
  | registerWritten _ hp h1 h4 hw r v ht =>
    have hnotDiv : (s.prog.read s.pc).toNat ≠ 5 := by omega
    obtain ⟨hend, hzero, hlegal, hl, hindex⟩ := no_cause_before_execution s hp h1 (by omega) hw
    rw [if_neg hend, if_neg hzero, if_neg hlegal, if_neg hl, if_neg hindex, if_neg (fun hfault => hnotDiv hfault.1), ht,
      writeReg_status, setPc_status, hs]
  | divided _ hp ho hw hd r v w ht =>
    have hdiv : (s.prog.read s.pc).toNat = 5 := congrArg BitVec.toNat ho
    have hnoFault : ¬ FaultingOperands (s.readReg (regSelect (s.prog.read (s.pc + 1))))
        (s.readReg (regSelect (s.prog.read (s.pc + 2)))) := fun hfault => by simp [(divFaults_iff _ _).2 hfault] at hd
    obtain ⟨hend, hzero, hlegal, hl, hindex⟩ := no_cause_before_execution s hp (by omega) (by omega) hw
    rw [if_neg hend, if_neg hzero, if_neg hlegal, if_neg hl, if_neg hindex, if_neg (fun hfault => hnoFault hfault.2), ht,
      setRem_status, writeReg_status, setPc_status, hs]

end Sys2Proof.Machine
end

section
/-! The decoder and the encoder of 30_encoding.md (sections 1 to 5): what `decode` answers on each byte list, its round trips with
`encode`, and the view of an opcode-table word (R56). -/

namespace Sys2Proof.Machine

/-! ### What the decoder answers -/

/-- The five things `decode` can answer, each with the byte lists on which it does. -/
inductive DecodeEnds : List Byte → Except DecodeReject (Instr × List Byte) → Prop
  | noOpcode : DecodeEnds [] (.error .noOpcode)
  | hlt (rest : List Byte) : DecodeEnds (0 :: rest) (.ok (.hlt, rest))
  | illegal (b0 : Byte) (rest : List Byte) (h6 : 6 ≤ b0.toNat) : DecodeEnds (b0 :: rest) (.error (.illegalOpcode b0))
  | truncated (b0 : Byte) (rest : List Byte) (h1 : 1 ≤ b0.toNat) (h5 : b0.toNat ≤ 5) (hshort : rest.length < 3) :
      DecodeEnds (b0 :: rest) (.error .truncated)
  | operands (b0 o1 o2 o3 : Byte) (rest : List Byte) (h1 : 1 ≤ b0.toNat) (h5 : b0.toNat ≤ 5) :
      DecodeEnds (b0 :: o1 :: o2 :: o3 :: rest) (.ok (instrOf b0 o1 o2 o3, rest))

/-- R54: fewer than three operand bytes make no instruction. -/
theorem takeOperands_truncated (mk : Byte → Byte → Byte → Instr) (rest : List Byte) (h : rest.length < 3) :
    takeOperands mk rest = .error .truncated := by
  match rest, h with
  | [], _ => rfl
  | [_], _ => rfl
  | [_, _], _ => rfl

/-- R54: an opcode byte 1 to 5 with fewer than three bytes after it. -/
theorem decode_truncated (b0 : Byte) (rest : List Byte) (h1 : 1 ≤ b0.toNat) (h5 : b0.toNat ≤ 5) (h : rest.length < 3) :
    decode (b0 :: rest) = .error .truncated := by
  rcases opcode_cases b0 h1 h5 with rfl | rfl | rfl | rfl | rfl <;> exact takeOperands_truncated _ rest h

/-- R55: an opcode byte 1 to 5 with its three operand bytes. -/
theorem decode_operands (b0 o1 o2 o3 : Byte) (rest : List Byte) (h1 : 1 ≤ b0.toNat) (h5 : b0.toNat ≤ 5) :
    decode (b0 :: o1 :: o2 :: o3 :: rest) = .ok (instrOf b0 o1 o2 o3, rest) := by
  rcases opcode_cases b0 h1 h5 with rfl | rfl | rfl | rfl | rfl <;> rfl

/-- R46, R110: a byte 0 is a whole HLT. -/
theorem decode_hlt (rest : List Byte) : decode (0 :: rest) = .ok (.hlt, rest) := rfl

/-- R52: an opcode byte from 6 on. -/
theorem decode_illegal (b0 : Byte) (rest : List Byte) (h6 : 6 ≤ b0.toNat) :
    decode (b0 :: rest) = .error (.illegalOpcode b0) := by
  simp [decode, (decodeOpcode_illegal b0).2 h6]

/-- R53, R55: the decoder answers one of the five. -/
theorem decode_ends (bytes : List Byte) : DecodeEnds bytes (decode bytes) := by
  match bytes with
  | [] => exact .noOpcode
  | b0 :: rest =>
    rcases Nat.eq_zero_or_pos b0.toNat with h0 | h1
    · obtain rfl : b0 = 0 := BitVec.eq_of_toNat_eq h0
      exact .hlt rest
    · rcases Nat.lt_or_ge 5 b0.toNat with h6 | h5
      · exact decode_illegal b0 rest h6 ▸ .illegal b0 rest h6
      · match rest with
        | o1 :: o2 :: o3 :: rest => exact decode_operands b0 o1 o2 o3 rest h1 h5 ▸ .operands b0 o1 o2 o3 rest h1 h5
        | [] => exact decode_truncated b0 [] h1 h5 (by simp) ▸ .truncated b0 [] h1 h5 (by simp)
        | [o1] => exact decode_truncated b0 [o1] h1 h5 (by simp) ▸ .truncated b0 [o1] h1 h5 (by simp)
        | [o1, o2] => exact decode_truncated b0 [o1, o2] h1 h5 (by simp) ▸ .truncated b0 [o1, o2] h1 h5 (by simp)

/-! ### The round trips -/

/-- R50: the encoder's two immediate bytes are the two bytes the immediate was made of. -/
theorem encode_load_joinImm (d hi lo : Byte) : encode (.load d (joinImm hi lo)) = [1, d, hi, lo] := by
  have hhi : (joinImm hi lo).extractLsb' 8 8 = hi := BitVec.extractLsb'_append_eq_left
  have hlo : (joinImm hi lo).extractLsb' 0 8 = lo := BitVec.extractLsb'_append_eq_right
  rw [encode, hhi, hlo]

/-- R47, R48: the bytes of an instruction with operands are the bytes it was made of. -/
theorem encode_instrOf (b0 o1 o2 o3 : Byte) (h1 : 1 ≤ b0.toNat) (h5 : b0.toNat ≤ 5) :
    encode (instrOf b0 o1 o2 o3) = [b0, o1, o2, o3] := by
  rcases opcode_cases b0 h1 h5 with rfl | rfl | rfl | rfl | rfl
  case inl => exact encode_load_joinImm o1 o2 o3
  all_goals rfl

/-- Settles O11, by the instruction; only LOAD's two immediate bytes have to be joined again. -/
theorem decodeOfEncodeIsTheInstruction : Obligations.DecodeOfEncodeIsTheInstruction := by
  intro i rest
  cases i with
  | hlt => exact decode_hlt rest
  | load d imm =>
    have hdecode := decode_operands 1 d (imm.extractLsb' 8 8) (imm.extractLsb' 0 8) rest (by decide) (by decide)
    have hinstr : instrOf 1 d (imm.extractLsb' 8 8) (imm.extractLsb' 0 8) = .load d imm :=
      congrArg (Instr.load d) (joinImm_split imm)
    rwa [hinstr] at hdecode
  | add a b d => exact decode_operands 2 a b d rest (by decide) (by decide)
  | sub a b d => exact decode_operands 3 a b d rest (by decide) (by decide)
  | mul a b d => exact decode_operands 4 a b d rest (by decide) (by decide)
  | div a b d => exact decode_operands 5 a b d rest (by decide) (by decide)

/-- Settles O12: of the five answers of the decoder two give an instruction, and each took the bytes that instruction encodes to. -/
theorem encodeOfDecodeIsTheBytes : Obligations.EncodeOfDecodeIsTheBytes := by
  intro bytes rest i hdecode
  have hends := decode_ends bytes
  rw [hdecode] at hends
  cases hends with
  | hlt => rfl
  | operands b0 o1 o2 o3 _ h1 h5 =>
    rw [encode_instrOf b0 o1 o2 o3 h1 h5]
    rfl

/-- R52: an opcode byte 0 to 5 is none of the bytes 6 to 255. -/
theorem legal_ne_illegal (b0 : Byte) (h5 : b0.toNat ≤ 5) (b : Byte) (h6 : 6 ≤ b.toNat) : b0 ≠ b := by
  rintro rfl
  omega

/-- Settles O13: the opcode byte's number and the length of the list exclude every answer of the decoder but one. -/
theorem decoderRejectsExactlyTheBytesThatAreNoInstruction :
    Obligations.DecoderRejectsExactlyTheBytesThatAreNoInstruction := by
  intro bytes
  have hends := decode_ends bytes
  generalize decode bytes = answer at hends
  cases hends with
  | noOpcode => simp
  | hlt rest => simpa using legal_ne_illegal 0 (by decide)
  | illegal b0 rest h6 =>
    have hlarge : ¬ b0.toNat ≤ 5 := by omega
    simp [h6, hlarge]
  | truncated b0 rest h1 h5 hshort => simpa [h1, h5, hshort] using legal_ne_illegal b0 h5
  | operands b0 o1 o2 o3 rest h1 h5 => simpa using legal_ne_illegal b0 h5

/-! ### Table words -/

/-- R56: the number whose base-256 digits are the bytes of a list, the first the most significant. -/
def wordOfBytes (bytes : List Byte) : Nat := bytes.foldl (fun w b => 256 * w + b.toNat) 0

/-- R56: the table word of an instruction is the number its bytes make. -/
theorem tableWord_eq_wordOfBytes (i : Instr) : tableWord i = wordOfBytes (encode i) := rfl

theorem wordOfBytes_concat (bytes : List Byte) (b : Byte) :
    wordOfBytes (bytes ++ [b]) = 256 * wordOfBytes bytes + b.toNat := by
  simp [wordOfBytes]

/-- R56: a byte appended to a table word is its last byte. -/
theorem tableByte_concat_last (n w : Nat) (b : Byte) : tableByte (n + 1) (256 * w + b.toNat) n = b := by
  apply BitVec.eq_of_toNat_eq
  have := b.isLt
  simp only [tableByte, BitVec.toNat_ofNat, Nat.add_sub_cancel, Nat.sub_self, Nat.mul_zero, Nat.shiftRight_zero]
  omega

/-- R56: a byte appended to a table word leaves the bytes before it as they are. -/
theorem tableByte_concat_init (n w k : Nat) (b : Byte) (hk : k < n) :
    tableByte (n + 1) (256 * w + b.toNat) k = tableByte n w k := by
  have hshift : 8 * (n + 1 - 1 - k) = 8 + 8 * (n - 1 - k) := by omega
  have hquot : (256 * w + b.toNat) >>> 8 = w := by
    have := b.isLt
    rw [Nat.shiftRight_eq_div_pow]
    omega
  rw [tableByte, hshift, Nat.shiftRight_add, hquot, tableByte]

/-- R56: the bytes of a number made of bytes are those bytes. -/
theorem map_tableByte_wordOfBytes (bytes : List Byte) :
    (List.range bytes.length).map (tableByte bytes.length (wordOfBytes bytes)) = bytes := by
  induction bytes using List.reverseRecOn with
  | nil => rfl
  | append_singleton bytes b ih =>
    have hinit : ∀ k ∈ List.range bytes.length, tableByte (bytes.length + 1) (256 * wordOfBytes bytes + b.toNat) k =
        tableByte bytes.length (wordOfBytes bytes) k :=
      fun k hk => tableByte_concat_init _ _ k b (List.mem_range.1 hk)
    rw [List.length_append, List.length_singleton, wordOfBytes_concat, List.range_succ, List.map_append,
      List.map_congr_left hinit, ih, List.map_singleton, tableByte_concat_last]

/-- R56, log 6: the program store's bytes of a table word are the instruction's own, then zero bytes. -/
theorem tableBytes_tableWord (i : Instr) : tableBytes (8 * (encode i).length) (tableWord i) =
    encode i ++ List.replicate (4 - (encode i).length) 0 := by
  have hlen : 8 * (encode i).length / 8 = (encode i).length := Nat.mul_div_cancel_left _ (by decide)
  rw [tableBytes, hlen, tableWord_eq_wordOfBytes, map_tableByte_wordOfBytes]

/-- Settles O14: the decoder takes the instruction's own bytes and leaves the zero bytes after them. -/
theorem tableWordOfAnInstructionDecodesToIt : Obligations.TableWordOfAnInstructionDecodesToIt := by
  intro i
  have hdecode := decodeOfEncodeIsTheInstruction i (List.replicate (4 - (encode i).length) 0)
  rw [decodeTableWord, tableBytes_tableWord, hdecode]

/-- Settles O10: the first six words are the table words of their instructions; the opcode byte of the last is 6. -/
theorem wordsWrittenOutFromTheLayoutsDecode : Obligations.WordsWrittenOutFromTheLayoutsDecode :=
  ⟨tableWordOfAnInstructionDecodesToIt .hlt, tableWordOfAnInstructionDecodesToIt (.load 7 500),
    tableWordOfAnInstructionDecodesToIt (.add 0 1 2), tableWordOfAnInstructionDecodesToIt (.sub 31 1 2),
    tableWordOfAnInstructionDecodesToIt (.mul 5 2 5), tableWordOfAnInstructionDecodesToIt (.div 5 4 6), by decide⟩

end Sys2Proof.Machine
end

section
/-! What every step keeps: the program (R20, R41), the range of `pc` (R17), `rem` but for a DIV that completes (R18), the precision of
halts (R130), and the notices a step emits (R78, R111). -/

namespace Sys2Proof.Machine

/-- R111: the illegal opcode emits its notice. -/
@[simp] theorem illegalOpcode_notices (s : State) : (illegalOpcode s).notices = s.notices ++ [.illegalNotice] := rfl

section Ends
variable {s t : State}

/-- R20, R41: however a step ends, it leaves the program as it was. -/
theorem StepEnds.sameProgram (h : StepEnds s t) : SameProgram s t := by
  cases h <;> subst t <;> exact ⟨rfl, rfl, fun k => byteAt_congr _ _ k rfl rfl⟩

/-- R129, R130: a step that ends HALTED writes no register. -/
theorem StepEnds.halted_writes_nothing (h : StepEnds s t) (ht : t.status ≠ .running) : t.x = s.x ∧ t.rem = s.rem := by
  cases h with
  | registerWritten hs hp h1 h4 hw r v he => exact absurd (he ▸ hs) ht
  | divided hs hp ho hw hd r v w he => exact absurd (he ▸ hs) ht
  | _ => subst t; exact ⟨rfl, rfl⟩

/-- R16, R73: a step that ends RUNNING began RUNNING and consumed the four bytes of an instruction. -/
theorem StepEnds.of_running (h : StepEnds s t) (ht : t.status = .running) :
    s.status = .running ∧ s.pc + 4 ≤ s.len ∧ t.pc = s.pc + 4 := by
  cases h with
  | alreadyHalted c hs he => simp [he, hs] at ht
  | registerWritten hs hp h1 h4 hw r v he => exact ⟨hs, hp, he ▸ rfl⟩
  | divided hs hp ho hw hd r v w he => exact ⟨hs, hp, he ▸ rfl⟩
  | _ => subst t; cases ht

/-- R16, R17: `pc` does not move back, and it moves no further than the end of the program. -/
theorem StepEnds.pc_bounds (h : StepEnds s t) : s.pc ≤ t.pc ∧ (t.pc = s.pc ∨ t.pc ≤ s.len) := by
  cases h with
  | alreadyHalted c hs ht => simp [ht]
  | exhausted hs hp ht => simp [ht]
  | _ => subst t; simp only [halt_pc, notify_pc, illegalOpcode_pc, writeReg_pc, setRem_pc, setPc_pc]; omega

/-- R18: `rem` is written by a complete opcode 5 alone, and the step ends RUNNING. -/
theorem StepEnds.of_rem_ne (h : StepEnds s t) (hrem : t.rem ≠ s.rem) :
    s.status = .running ∧ s.prog.read s.pc = 5 ∧ s.pc + 4 ≤ s.len ∧ t.status = .running := by
  cases h with
  | divided hs hp ho hw hd r v w he => exact ⟨hs, ho, hp, he ▸ hs⟩
  | _ => subst t; exact absurd rfl hrem

end Ends

/-- Settles O17: the step ends in one of its nine ways. -/
theorem stepAlwaysAnswersANextState : Obligations.StepAlwaysAnswersANextState := by
  intro s
  obtain ⟨t, hstep, -⟩ := step_answers_next s
  exact ⟨t, hstep⟩

/-- Settles O48: none of the nine ways a step can end touches the program. -/
theorem noStepWritesTheProgram : Obligations.NoStepWritesTheProgram := by
  intro s
  obtain ⟨t, hstep, hends⟩ := step_answers_next s
  exact ⟨t, hstep, hends.sameProgram⟩

/-- Settles O27: the two ways to end that write a register end RUNNING. -/
theorem aHaltingStepWritesNoRegisterNoRemNoProgram : Obligations.AHaltingStepWritesNoRegisterNoRemNoProgram := by
  intro s
  obtain ⟨t, hstep, hends⟩ := step_answers_next s
  refine ⟨t, hstep, fun ht => ?_⟩
  obtain ⟨hx, hrem⟩ := hends.halted_writes_nothing ht
  exact ⟨hx, hrem, hends.sameProgram⟩

/-- Settles O46: the one way to end that writes `rem` is a DIV with all its bytes present. -/
theorem onlyACompletingDivWritesRem : Obligations.OnlyACompletingDivWritesRem := by
  intro s
  obtain ⟨t, hstep, hends⟩ := step_answers_next s
  refine ⟨t, hstep, fun hrem => ?_⟩
  obtain ⟨hs, hopcode, hp, ht⟩ := hends.of_rem_ne hrem
  exact ⟨hs, (byteAt_eq_some _ _ _).2 ⟨by omega, hopcode⟩, hp, ht⟩

/-- R15, R17: a `pc` inside a program of permitted length fits its register. -/
theorem pcBits_toNat (cfg : Config) (s : State) (h : s.pc ≤ cfg.maxLen) : (s.pcBits cfg).toNat = s.pc := by
  have hpos : 0 < 2 ^ cfg.pcw := Nat.two_pow_pos cfg.pcw
  have hlt : s.pc < 2 ^ cfg.pcw := by
    rw [Config.maxLen] at h
    omega
  rw [State.pcBits, BitVec.toNat_ofNat, Nat.mod_eq_of_lt hlt]

/-- Settles O51: the step keeps `len`, and `pc` stays between its old value and `len`. -/
theorem thePcNeverWraps : Obligations.ThePcNeverWraps := by
  intro cfg s hlen hpc
  obtain ⟨t, hstep, hends⟩ := step_answers_next s
  obtain ⟨-, hlenEq, -⟩ := hends.sameProgram
  obtain ⟨hforward, hrange⟩ := hends.pc_bounds
  exact ⟨t, hstep, hforward, by omega, by omega, pcBits_toNat cfg t (by omega)⟩

/-! ### The notices -/

/-- Settles O26, one case for each way a step can end: the opcode byte's number decides which notice, if any, it emits. -/
theorem noticesAreEmittedByHltAndIllegalOpcodeOnly : Obligations.NoticesAreEmittedByHltAndIllegalOpcodeOnly := by
  intro s
  obtain ⟨t, hstep, hends⟩ := step_answers_next s
  refine ⟨t, hstep, ?_⟩
  cases hends with
  | alreadyHalted c hs ht => simp [ht, hs]
  | exhausted hs hp ht => simp [ht, Nat.not_lt.2 hp]
  | hlt hs hp ho ht => simp [ht, hs, hp, ho]
  | illegal hs hp ho ht =>
    have hnotHlt : (s.prog.read s.pc).toNat ≠ 0 := by omega
    simp [ht, hs, hp, ho, hnotHlt]
  | truncated hs hp h1 h5 hl ht =>
    obtain ⟨-, hnotHlt, hlegal⟩ := no_opcode_cause s hp h1 h5
    simp [ht, hnotHlt, hlegal]
  | invalidRegister hs hp h1 h5 hw ht =>
    obtain ⟨-, hnotHlt, hlegal⟩ := no_opcode_cause s (by omega) h1 h5
    simp [ht, hnotHlt, hlegal]
  | arithmeticFault hs hp ho hw hd ht => simp [ht, ho]
  | registerWritten hs hp h1 h4 hw r v ht =>
    obtain ⟨-, hnotHlt, hlegal⟩ := no_opcode_cause s (by omega) h1 (by omega)
    simp [ht, hnotHlt, hlegal]
  | divided hs hp ho hw hd r v w ht => simp [ht, ho]

/-- Settles O20: the step is the notice and the halt of an illegal opcode, and `pc - 1` is where its byte stands. -/
theorem illegalOpcodeHaltsWithNotice : Obligations.IllegalOpcodeHaltsWithNotice := by
  intro s b hs hb h6
  obtain ⟨hp, rfl⟩ := (byteAt_eq_some _ _ _).1 hb
  exact ⟨_, step_illegal s hs hp h6, haltedWith_setPc_notify_halt .illegalOpcode 1 .illegalNotice s, hb⟩

end Sys2Proof.Machine
end

section
/-! The host operations of 40_step_decode.md section 5, 60_exceptions.md section 5 and 70_reset_and_hazards.md: Reset (R150, R151),
the refused load (R80), the reports of Run (R74, R75, R77) and the way out of HALTED (R131). -/

namespace Sys2Proof.Machine

/-! ### Reset and load -/

/-- R150: what the host operation Reset replies, whatever the state. -/
theorem hostOp_reset (cfg : Config) (s : State) : hostOp cfg .reset s = .next ⟨State.reset, none⟩ := rfl

/-- Settles O2: the reply is the reset state, whose items are known one by one. -/
theorem hostResetLeavesNothingOfTheOldState : Obligations.HostResetLeavesNothingOfTheOldState :=
  fun cfg s => ⟨State.reset, hostOp_reset cfg s, readReg_reset, rfl, rfl, rfl, byteAt_reset, rfl, rfl⟩

/-- Settles O3: after reset the empty program ends at `pc`. -/
theorem stepRightAfterResetHaltsExhausted : Obligations.StepRightAfterResetHaltsExhausted :=
  ⟨_, step_exhausted State.reset rfl (Nat.le_refl 0), haltedWith_setPc_halt .exhausted 0 State.reset⟩

/-- R80, log 7: a load of more bytes than a program can have. -/
theorem loadProgram_tooLong (cfg : Config) (bytes : List Byte) (s : State) (hs : s.IsResetState)
    (hlen : cfg.maxLen < bytes.length) : loadProgram cfg bytes s = .refused .programTooLong := by
  simp [loadProgram, (inResetState_iff s).2 hs, hlen]

/-- Settles O5: the length check comes after the check of the reset state, which is met. -/
theorem overlongProgramIsRefused : Obligations.OverlongProgramIsRefused := by
  intro cfg bytes s hs hlen
  rw [hostOp_loadProgram, loadProgram_tooLong cfg bytes s hs hlen]
  rfl

/-! ### Run -/

/-- R73: `done` says whether the state has halted. -/
theorem stepDone_iff (s : State) : stepDone s = true ↔ s.status ≠ .running := by
  cases h : s.status <;> simp [stepDone, State.isHalted, h]

/-- R74: a turn of the loop whose step reports `done` is the last. -/
theorem runSteps_of_done (n : Nat) (s t : State) (h : step s = .next t) (ht : t.status ≠ .running) :
    runSteps (n + 1) s = .next t := by
  simp [runSteps, h, (stepDone_iff t).2 ht]

/-- R74: a turn of the loop whose step does not report `done` is followed by the next. -/
theorem runSteps_of_running (n : Nat) (s t : State) (h : step s = .next t) (ht : t.status = .running) :
    runSteps (n + 1) s = runSteps n t := by
  have hdone : stepDone t = false := by simpa [ht] using (stepDone_iff t).not
  simp [runSteps, h, hdone]

/-- The host's loop makes one step first. -/
theorem coreRun_succ (n : Nat) (s t : State) (h : step s = .next t) :
    Host.Core.run core (n + 1) s = Host.Core.run core n t := by
  have hcore : core.step s = .next t := h
  simp [Host.Core.run, hcore]

/-- R74, R75: `n` steps from `s`, the last of them alone ending HALTED, in `t`. -/
def FirstDone (n : Nat) (s t : State) : Prop :=
  1 ≤ n ∧ t.status ≠ .running ∧ Host.Core.run core n s = .next t ∧
    ∀ m, 1 ≤ m → m < n → ∃ u : State, Host.Core.run core m s = .next u ∧ u.status = .running

/-- R74: a step that ends HALTED is the first to do so. -/
theorem firstDone_of_done (s t : State) (h : step s = .next t) (ht : t.status ≠ .running) : FirstDone 1 s t :=
  ⟨Nat.le_refl 1, ht, coreRun_succ 0 s t h, fun m h1 hm => by omega⟩

/-- R74: a step that ends RUNNING puts the first `done` one step later. -/
theorem FirstDone.of_running {n : Nat} {s t u : State} (hn : FirstDone n t u) (h : step s = .next t)
    (ht : t.status = .running) : FirstDone (n + 1) s u := by
  obtain ⟨h1, hu, hrun, hbefore⟩ := hn
  refine ⟨by omega, hu, (coreRun_succ n s t h).trans hrun, fun m hm1 hmn => ?_⟩
  obtain ⟨m, rfl⟩ : ∃ k, m = k + 1 := ⟨m - 1, by omega⟩
  rw [coreRun_succ m s t h]
  cases m with
  | zero => exact ⟨t, rfl, ht⟩
  | succ m => exact hbefore (m + 1) (by omega) (by omega)

/-- R75: the loop reaches its first `done` within a bound that the bytes left to fetch give, four for each step that goes on. -/
theorem runSteps_reaches_firstDone (bound : Nat) (s : State) (hbound : s.len - s.pc < 4 * bound) :
    ∃ n t, n ≤ bound ∧ runSteps bound s = .next t ∧ FirstDone n s t := by
  induction bound generalizing s with
  | zero => omega
  | succ bound ih =>
    obtain ⟨t, hstep, hends⟩ := step_answers_next s
    by_cases ht : t.status = .running
    · obtain ⟨-, hp, hpc⟩ := hends.of_running ht
      obtain ⟨-, hlen, -⟩ := hends.sameProgram
      obtain ⟨n, u, hn, hrun, hfirst⟩ := ih t (by omega)
      exact ⟨n + 1, u, by omega, (runSteps_of_running bound s t hstep ht).trans hrun, hfirst.of_running hstep ht⟩
    · exact ⟨1, t, by omega, runSteps_of_done bound s t hstep ht, firstDone_of_done s t hstep ht⟩

/-- Settles O7: the bound of the loop is enough for all the bytes of the program. -/
theorem runIsTheStepsUpToTheFirstDone : Obligations.RunIsTheStepsUpToTheFirstDone := by
  intro s
  obtain ⟨n, t, hn, hrun, h1, ht, hsteps, hbefore⟩ := runSteps_reaches_firstDone (s.len / 4 + 1) s (by omega)
  exact ⟨n, t, h1, hn, hrun, ht, hsteps, hbefore⟩

/-! ### The way out of HALTED -/

/-- R65, R74: what the host operation Run replies when it ends in `t`; it has no `done` output. -/
theorem hostOp_run (cfg : Config) (s t : State) (h : run s = .next t) : hostOp cfg .run s = .next ⟨t, none⟩ := by
  simp [hostOp, reply, h]

/-- R79: a sequence goes on from the state its first operation leaves. -/
theorem hostOps_cons_next (cfg : Config) (op : HostOp) (ops : List HostOp) (s : State) (r : HostReply)
    (h : hostOp cfg op s = .next r) : hostOps cfg (op :: ops) s = hostOps cfg ops r.state := by
  simp [hostOps, h]

section Halted
variable (cfg : Config) (s : State) (c : Cause) (hs : s.status = .halted c)
include hs

/-- R77: a Run while HALTED changes nothing. -/
theorem run_halted : run s = .next s :=
  runSteps_of_done _ s s (step_halted s c hs) (by simp [hs])

/-- R80: a load while HALTED is refused. -/
theorem hostOp_loadProgram_halted (bytes : List Byte) :
    hostOp cfg (.loadProgram bytes) s = .refused .loadOutsideResetState := by
  have hnot : ¬ s.IsResetState := fun ⟨hrunning, _⟩ => by simp [hs] at hrunning
  rw [hostOp_loadProgram, loadProgram_outsideResetState cfg bytes s hnot]
  rfl

/-- R76, R77, R131: while HALTED, an operation that is neither a Reset nor a load changes nothing. -/
theorem hostOp_halted (op : HostOp) (hreset : op ≠ .reset) (hload : ∀ bytes, op ≠ .loadProgram bytes) :
    ∃ done, hostOp cfg op s = .next ⟨s, done⟩ := by
  cases op with
  | reset => exact absurd rfl hreset
  | loadProgram bytes => exact absurd rfl (hload bytes)
  | step => exact ⟨_, hostOp_step cfg s s (step_halted s c hs)⟩
  | run => exact ⟨_, hostOp_run cfg s s (run_halted s c hs)⟩

/-- R131: operations without a Reset and without a load do nothing while HALTED. -/
theorem hostOps_halted (ops : List HostOp) (hreset : .reset ∉ ops) (hload : ∀ bytes, .loadProgram bytes ∉ ops) :
    hostOps cfg ops s = .next s := by
  induction ops with
  | nil => rfl
  | cons op ops ih =>
    obtain ⟨hop, hops⟩ := List.forall_mem_cons.1 (List.forall_mem_ne'.2 hreset)
    have hloads := fun bytes => List.forall_mem_cons.1 (List.forall_mem_ne'.2 (hload bytes))
    obtain ⟨done, h⟩ := hostOp_halted cfg s c hs op hop fun bytes => (hloads bytes).1
    rw [hostOps_cons_next cfg op ops s _ h]
    exact ih (List.forall_mem_ne'.1 hops) fun bytes => List.forall_mem_ne'.1 (hloads bytes).2

/-- R80, R131: operations without a Reset stop at the first load while HALTED. -/
theorem hostOps_halted_load (ops : List HostOp) (hreset : .reset ∉ ops) (bytes : List Byte)
    (hload : .loadProgram bytes ∈ ops) : hostOps cfg ops s = .refused .loadOutsideResetState := by
  induction ops with
  | nil => simp at hload
  | cons op ops ih =>
    obtain ⟨hop, hops⟩ := List.forall_mem_cons.1 (List.forall_mem_ne'.2 hreset)
    by_cases hfirst : ∃ first, op = .loadProgram first
    · obtain ⟨first, rfl⟩ := hfirst
      simp [hostOps, hostOp_loadProgram_halted cfg s c hs first]
    · obtain ⟨done, h⟩ := hostOp_halted cfg s c hs op hop (not_exists.1 hfirst)
      rw [hostOps_cons_next cfg op ops s _ h]
      exact ih (List.forall_mem_ne'.1 hops)
        (List.mem_of_ne_of_mem (fun e => hfirst ⟨bytes, e.symm⟩) hload)

end Halted

/-- Settles O8: a load in the sequence is refused when its turn comes, and every other operation replies the state it began in. -/
theorem onlyResetLeavesHalted : Obligations.OnlyResetLeavesHalted := by
  intro cfg ops s c hs hreset
  exact ⟨hostOps_halted cfg s c hs ops hreset, fun ⟨bytes, hload⟩ => hostOps_halted_load cfg s c hs ops hreset bytes hload,
    hostOps_cons_next cfg .reset [] s _ (hostOp_reset cfg s)⟩

end Sys2Proof.Machine
end

section
/-! The invariant of the machine (`State.Inv`): at reset, across a step, across every host operation, and so in every state that host
operations reach from reset. -/

namespace Sys2Proof.Machine

/-- Settles O52: the program is empty, and RUNNING asks for an aligned `pc` and no notice. -/
theorem theInvariantHoldsAtReset : Obligations.TheInvariantHoldsAtReset where
  canonical := reset_prog_wf
  insideProgram := List.forall_mem_nil _
  pcInsideProgram := Nat.le_refl 0
  pcTellsStatus := Nat.zero_mod 4
  noticesTellStatus := rfl

/-! ### A step -/

section Step
variable {s t : State}

/-- R16, R35: RUNNING asks of `pc` no more than that it stands at the start of an instruction. -/
theorem pcTellsStatus_of_running (hs : s.status = .running) (hpc : s.pc % 4 = 0) : s.PcTellsStatus := by
  rwa [State.PcTellsStatus, hs]

theorem State.Inv.pc_aligned (hinv : s.Inv) (hs : s.status = .running) : s.pc % 4 = 0 := by
  have h := hinv.pcTellsStatus
  rwa [State.PcTellsStatus, hs] at h

/-- R16: four bytes further `pc` is at the start of an instruction again. -/
theorem State.Inv.pc_add_four_aligned (hinv : s.Inv) (hs : s.status = .running) : (s.pc + 4) % 4 = 0 := by
  rw [Nat.add_mod_right, hinv.pc_aligned hs]

/-- R78: the invariant of a RUNNING state puts nothing on the trace. -/
theorem State.Inv.notices_eq_nil (hinv : s.Inv) (hs : s.status = .running) : s.notices = [] := by
  have h := hinv.noticesTellStatus
  rwa [hs] at h

/-- R16, R35, R120: where `pc` stands after a step, one case for each way the step can end. -/
theorem StepEnds.pcTellsStatus (h : StepEnds s t) (hinv : s.Inv) : t.PcTellsStatus := by
  have hbyte : s.pc < s.len → s.byteAt s.pc = some (s.prog.read s.pc) := fun hp => (byteAt_eq_some _ _ _).2 ⟨hp, rfl⟩
  cases h with
  | alreadyHalted c hs ht => exact ht ▸ hinv.pcTellsStatus
  | exhausted hs hp ht =>
    subst t
    exact ⟨Nat.le_antisymm hinv.pcInsideProgram hp, hinv.pc_aligned hs⟩
  | hlt hs hp ho ht =>
    subst t
    exact ⟨Nat.le_add_left 1 s.pc, hinv.pc_aligned hs, ho ▸ hbyte hp⟩
  | illegal hs hp ho ht =>
    subst t
    exact ⟨Nat.le_add_left 1 s.pc, hinv.pc_aligned hs, _, hbyte hp, ho⟩
  | truncated hs hp h1 h5 hl ht =>
    subst t
    have haligned := hinv.pc_aligned hs
    have hstart : s.len - s.len % 4 = s.pc := by omega
    have hmid : s.len % 4 ≠ 0 := by omega
    exact ⟨rfl, hmid, _, (congrArg s.byteAt hstart).trans (hbyte hp), h1, h5⟩
  | invalidRegister hs hp h1 h5 hw ht =>
    subst t
    exact ⟨Nat.le_add_left 4 s.pc, hinv.pc_add_four_aligned hs, _, hbyte (by omega), h1, h5⟩
  | arithmeticFault hs hp ho hw hd ht =>
    subst t
    exact ⟨Nat.le_add_left 4 s.pc, hinv.pc_add_four_aligned hs, ho ▸ hbyte (by omega)⟩
  | registerWritten hs hp h1 h4 hw r v ht =>
    subst t
    exact pcTellsStatus_of_running hs (hinv.pc_add_four_aligned hs)
  | divided hs hp ho hw hd r v w ht =>
    subst t
    exact pcTellsStatus_of_running hs (hinv.pc_add_four_aligned hs)

/-- R78: the trace after a step. A step that begins RUNNING begins with an empty trace, and its own notice is what its cause calls
for. -/
theorem StepEnds.noticesTellStatus (h : StepEnds s t) (hinv : s.Inv) : t.notices = noticesOf t.status := by
  cases h with
  | alreadyHalted c hs ht => exact ht ▸ hinv.noticesTellStatus
  | _ =>
    subst t
    have hs : s.status = .running := ‹_›
    simp [hs, hinv.notices_eq_nil hs, noticesOf]

/-- However a step ends, it keeps the invariant. -/
theorem StepEnds.inv (h : StepEnds s t) (hinv : s.Inv) : t.Inv := by
  obtain ⟨hprog, hlen, -⟩ := h.sameProgram
  have hpc := hinv.pcInsideProgram
  obtain ⟨-, hrange⟩ := h.pc_bounds
  exact {
    canonical := hprog ▸ hinv.canonical
    insideProgram := hprog ▸ hlen ▸ hinv.insideProgram
    pcInsideProgram := by omega
    pcTellsStatus := h.pcTellsStatus hinv
    noticesTellStatus := h.noticesTellStatus hinv }

end Step

/-- Settles O53: each of the nine ways a step can end keeps the invariant. -/
theorem everyStepKeepsTheInvariant : Obligations.EveryStepKeepsTheInvariant := by
  intro s hinv
  obtain ⟨t, hstep, hends⟩ := step_answers_next s
  exact ⟨t, hstep, hends.inv hinv⟩

/-! ### The host operations -/

/-- R80: a permitted load keeps the invariant, `pc` being 0. -/
theorem inv_setProgram_writeBytes (s : State) (bytes : List Byte) (hinv : s.Inv) (hreset : s.IsResetState) :
    (s.setProgram (Memory.writeBytes [] 0 bytes) bytes.length).Inv := by
  obtain ⟨hs, hpc, -⟩ := hreset
  exact {
    canonical := Memory.writeBytes_wf [] reset_prog_wf 0 bytes
    insideProgram := fun c hc => by simpa using Memory.mem_writeBytes [] 0 bytes c hc
    pcInsideProgram := by simp [hpc]
    pcTellsStatus := pcTellsStatus_of_running hs (by simp [hpc])
    noticesTellStatus := hinv.noticesTellStatus }

/-- Everything LoadProgram can answer (R80, log 7). -/
theorem loadProgram_cases (cfg : Config) (bytes : List Byte) (s : State) :
    loadProgram cfg bytes s = .refused .loadOutsideResetState ∨ loadProgram cfg bytes s = .refused .programTooLong ∨
    (s.IsResetState ∧ loadProgram cfg bytes s = .next (s.setProgram (Memory.writeBytes [] 0 bytes) bytes.length)) := by
  by_cases hreset : s.IsResetState
  · rcases Nat.lt_or_ge cfg.maxLen bytes.length with hlong | hfits
    · exact .inr (.inl (loadProgram_tooLong cfg bytes s hreset hlong))
    · exact .inr (.inr ⟨hreset, loadProgram_permitted cfg bytes s hreset hfits⟩)
  · exact .inl (loadProgram_outsideResetState cfg bytes s hreset)

/-- R74: any number of turns of the loop keeps the invariant. -/
theorem runSteps_keeps_inv (n : Nat) (s : State) (hinv : s.Inv) : ∃ t, runSteps n s = .next t ∧ t.Inv := by
  induction n generalizing s with
  | zero => exact ⟨s, rfl, hinv⟩
  | succ n ih =>
    obtain ⟨t, hstep, ht⟩ := everyStepKeepsTheInvariant s hinv
    by_cases hrunning : t.status = .running
    · rw [runSteps_of_running n s t hstep hrunning]
      exact ih t ht
    · exact ⟨t, runSteps_of_done n s t hstep hrunning, ht⟩

/-- Settles O54, one case for each operation; LoadProgram alone can be refused. -/
theorem everyHostOperationKeepsTheInvariant : Obligations.EveryHostOperationKeepsTheInvariant := by
  intro cfg op s hinv
  cases op with
  | reset => exact .inl ⟨_, hostOp_reset cfg s, theInvariantHoldsAtReset⟩
  | loadProgram bytes =>
    rw [hostOp_loadProgram]
    rcases loadProgram_cases cfg bytes s with outside | tooLong | ⟨hreset, loaded⟩
    · exact .inr ⟨bytes, rfl, .inl (by rw [outside]; rfl)⟩
    · exact .inr ⟨bytes, rfl, .inr (by rw [tooLong]; rfl)⟩
    · rw [loaded]
      exact .inl ⟨_, rfl, inv_setProgram_writeBytes s bytes hinv hreset⟩
  | step =>
    obtain ⟨t, hstep, ht⟩ := everyStepKeepsTheInvariant s hinv
    exact .inl ⟨_, hostOp_step cfg s t hstep, ht⟩
  | run =>
    obtain ⟨t, hrun, ht⟩ := runSteps_keeps_inv (runBound s) s hinv
    exact .inl ⟨_, hostOp_run cfg s t hrun, ht⟩

/-! ### The reachable states -/

/-- A sequence of host operations keeps the invariant. -/
theorem hostOps_keeps_inv (cfg : Config) (ops : List HostOp) (s t : State) (hinv : s.Inv)
    (h : hostOps cfg ops s = .next t) : t.Inv := by
  induction ops generalizing s with
  | nil =>
    cases h
    exact hinv
  | cons op ops ih =>
    rcases everyHostOperationKeepsTheInvariant cfg op s hinv with ⟨r, hop, hr⟩ | ⟨_, -, outside | tooLong⟩
    · rw [hostOps_cons_next cfg op ops s r hop] at h
      exact ih r.state hr h
    · simp [hostOps, outside] at h
    · simp [hostOps, tooLong] at h

/-- R78: no status calls for more than one notice. -/
theorem noticesOf_length_le_one (st : Status) : (noticesOf st).length ≤ 1 := by
  cases st with
  | running => decide
  | halted c => cases c <;> decide

/-- Settles O55: the invariant holds at reset, every operation keeps it, and it fixes the trace by the status. -/
theorem reachableStatesMeetTheInvariantWithAtMostOneNotice :
    Obligations.ReachableStatesMeetTheInvariantWithAtMostOneNotice := by
  intro cfg ops s h
  have hinv := hostOps_keeps_inv cfg ops State.reset s theInvariantHoldsAtReset h
  exact ⟨hinv, hinv.noticesTellStatus ▸ noticesOf_length_le_one s.status⟩

end Sys2Proof.Machine
end

section
/-! Halts and completions: `halt(cause)` and the status register (60_exceptions.md R120, R129; 10_state.md R19), and each instruction's
result and frame (42_arith.md, 43_div.md, 44_halt.md, 10_state.md R13). -/

namespace Sys2Proof.Machine

/-! ### Halts and the status register -/

/-- R129: a halt with no byte consumed and no notice. -/
theorem haltedWith_halt (c : Cause) (s : State) : HaltedWith c 0 [] s (s.halt c) := haltedWith_setPc_halt c 0 s

/-- Settles O28: a halt is an update of the status alone. -/
theorem haltSetsTheStatusAndNothingElse : Obligations.HaltSetsTheStatusAndNothingElse :=
  fun s c => ⟨rfl, rfl, rfl, haltedWith_halt c s⟩

/-- R120: the status that a value of the `cause` field stands for. -/
def Status.ofCauseField (f : BitVec 3) : Status :=
  match f.toNat with
  | 1 => .halted .hlt
  | 2 => .halted .illegalOpcode
  | 3 => .halted .exhausted
  | 4 => .halted .truncated
  | 5 => .halted .arithmeticFault
  | 6 => .halted .invalidRegister
  | _ => .running

/-- R120: the `cause` field tells the status. -/
theorem ofCauseField_causeField (st : Status) : Status.ofCauseField st.causeField = st := by
  cases st with
  | running => rfl
  | halted c => cases c <;> rfl

theorem causeField_injective : Function.Injective Status.causeField :=
  Function.LeftInverse.injective ofCauseField_causeField

/-- R120, D20: no status has 7 in its `cause` field, which would stand for RUNNING, whose field is 0. -/
theorem causeField_ne_seven (st : Status) : st.causeField ≠ 7 := by
  intro hseven
  have hrunning : Status.ofCauseField 7 = st := hseven ▸ ofCauseField_causeField st
  rw [← hrunning] at hseven
  exact absurd hseven (by decide)

/-- R19: the `halted` field is 0 exactly when RUNNING. -/
theorem haltedField_eq_zero_iff (st : Status) : st.haltedField = 0 ↔ st = .running := by
  cases st <;> simp [Status.haltedField]

/-- Settles O29: the codes are those of the table, and the field has an inverse. -/
theorem statusFieldsHaveTheCodesOfTheTable : Obligations.StatusFieldsHaveTheCodesOfTheTable :=
  ⟨rfl, rfl, rfl, rfl, rfl, rfl, fun _ => ⟨rfl, rfl⟩, fun st =>
    ⟨haltedField_eq_zero_iff st, causeField_injective.eq_iff' rfl, causeField_ne_seven st,
      fun _ => @causeField_injective st _⟩⟩

/-- Settles O30: HLT is its notice and a halt, with no byte of its own left to consume. -/
theorem hltCompletesByHalting : Obligations.HltCompletesByHalting :=
  fun s => ⟨_, exec_hlt s, haltedWith_setPc_notify_halt .hlt 0 .haltNotice s⟩

/-- Settles O37: of the ends an instruction can come to, INVALID_REGISTER is that of the ill-formed ones and of no other. -/
theorem instructionWithAnIllegalIndexHalts : Obligations.InstructionWithAnIllegalIndexHalts := by
  intro i s hs
  rcases exec_cases i s with ⟨rfl, hlt⟩ | ⟨hw, invalid⟩ | ⟨-, hw, fault⟩ | ⟨hw, -, r, v, written⟩ | ⟨hw, -, r, v, w, divided⟩
  · exact ⟨_, hlt, fun hw => absurd hw (by decide), fun _ => by simp⟩
  · exact ⟨_, invalid, fun _ => haltedWith_halt .invalidRegister s, fun h => by simp [hw] at h⟩
  · exact ⟨_, fault, fun h => by simp [hw] at h, fun _ => by simp⟩
  · exact ⟨_, written, fun h => by simp [hw] at h, fun _ => by simp [hs]⟩
  · exact ⟨_, divided, fun h => by simp [hw] at h, fun _ => by simp [hs]⟩

/-! ### Completion of ADD, SUB, MUL and DIV -/

/-- R90: with legal indices the shared form completes with the exact result modulo 2^32. -/
theorem registerForm_writeResult_completes (op : Int → Int → Int) (a b d : Byte) (s : State)
    (ha : a.toNat < 32) (hb : b.toNat < 32) (hd : d.toNat < 32) :
    ∃ t : State, Host.Outcome.next (registerForm a b d (writeResult op) s) = (.next t : Result) ∧
      OnlyRegisterWritten d 0 s t ∧ ((t.readReg ⟨d.toNat, hd⟩).toNat : Int) =
        op (s.readReg ⟨a.toNat, ha⟩).toInt (s.readReg ⟨b.toNat, hb⟩).toInt % 2 ^ 32 := by
  rw [registerForm_writeResult_legal op a b d s ha hb hd]
  refine ⟨_, rfl, onlyRegisterWritten_writeReg d _ s hd, ?_⟩
  rw [readReg_writeReg_same, wrap32_toNat]

/-- Settles O32: ADD is the shared form at the sum. -/
theorem addCompletesWithTheWrappedSum : Obligations.AddCompletesWithTheWrappedSum :=
  fun a b d s => registerForm_writeResult_completes (· + ·) a b d s

/-- Settles O33: SUB is the shared form at the difference. -/
theorem subCompletesWithTheWrappedDifference : Obligations.SubCompletesWithTheWrappedDifference :=
  fun a b d s => registerForm_writeResult_completes (· - ·) a b d s

/-- Settles O34: MUL is the shared form at the product. -/
theorem mulCompletesWithTheWrappedProduct : Obligations.MulCompletesWithTheWrappedProduct :=
  fun a b d s => registerForm_writeResult_completes (· * ·) a b d s

/-- R100: the two writes of DIV change nothing else. -/
theorem onlyRegisterAndRemWritten_writeReg_setRem (d : Byte) (v w : Word) (s : State) (hd : d.toNat < 32) :
    OnlyRegisterAndRemWritten d 0 s ((s.writeReg ⟨d.toNat, hd⟩ v).setRem w) :=
  onlyRegisterAndRemWritten_setPc_writeReg_setRem d 0 v w s hd

/-- Settles O35: off the overflow the quotient fits its register, and the remainder is what the quotient leaves of the dividend. -/
theorem divCompletesWithQuotientAndRemainder : Obligations.DivCompletesWithQuotientAndRemainder := by
  intro a b d s ha hb hd hok
  refine ⟨_, exec_div_completes a b d s ha hb hd hok, onlyRegisterAndRemWritten_writeReg_setRem d _ _ s hd, ?_⟩
  rw [readReg_setRem, readReg_writeReg_same, toInt_sdiv_of_not_faulting _ _ hok, ← Int.tmod_def]
  exact ⟨rfl, BitVec.toInt_srem _ _⟩

/-- Settles O36: with legal indices DIV on faulting operands is a halt. -/
theorem divHaltsOnFaultingOperands : Obligations.DivHaltsOnFaultingOperands :=
  fun a b d s ha hb hd hfault => ⟨_, exec_div_faulting a b d s ha hb hd hfault, haltedWith_halt .arithmeticFault s⟩

/-! ### Frames -/

/-- R13: with every register as before, so is every register but one. -/
theorem sameRegsExcept_of_x_eq (d : Byte) (s t : State) (hx : t.x = s.x) : SameRegsExcept d s t :=
  fun j _ => readReg_congr s j t hx

/-- R69: three index bytes are legal, or one of them names no register. -/
theorem indices_legal_or_illegal (a b d : Byte) :
    (a.toNat < 32 ∧ b.toNat < 32 ∧ d.toNat < 32) ∨ (32 ≤ a.toNat ∨ 32 ≤ b.toNat ∨ 32 ≤ d.toNat) := by omega

/-- R69, R85: LOAD writes its register alone or halts. -/
theorem exec_load_ends (d : Byte) (imm : Imm16) (s : State) : ∃ t, exec (.load d imm) s = .next t ∧
    (OnlyRegisterWritten d 0 s t ∨ HaltedWith .invalidRegister 0 [] s t) := by
  rcases Nat.lt_or_ge d.toNat 32 with hd | hd
  · exact ⟨_, exec_load_legal d imm s hd, .inl (onlyRegisterWritten_writeReg d _ s hd)⟩
  · exact ⟨_, exec_load_illegal d imm s hd, .inr (haltedWith_halt .invalidRegister s)⟩

/-- R69, R90: the shared form writes its register alone or halts. -/
theorem registerForm_writeResult_ends (op : Int → Int → Int) (a b d : Byte) (s : State) :
    ∃ t : State, Host.Outcome.next (registerForm a b d (writeResult op) s) = (.next t : Result) ∧
      (OnlyRegisterWritten d 0 s t ∨ HaltedWith .invalidRegister 0 [] s t) := by
  rcases indices_legal_or_illegal a b d with ⟨ha, hb, hd⟩ | hillegal
  · obtain ⟨t, hexec, hframe, -⟩ := registerForm_writeResult_completes op a b d s ha hb hd
    exact ⟨t, hexec, .inl hframe⟩
  · rw [registerForm_illegal a b d _ s hillegal]
    exact ⟨_, rfl, .inr (haltedWith_halt .invalidRegister s)⟩

/-- R69, R100: DIV writes its register and `rem` alone or halts with one of two causes. -/
theorem exec_div_ends (a b d : Byte) (s : State) : ∃ t, exec (.div a b d) s = .next t ∧
    (OnlyRegisterAndRemWritten d 0 s t ∨ HaltedWith .invalidRegister 0 [] s t ∨ HaltedWith .arithmeticFault 0 [] s t) := by
  rcases indices_legal_or_illegal a b d with ⟨ha, hb, hd⟩ | hillegal
  · by_cases hfault : FaultingOperands (s.readReg ⟨a.toNat, ha⟩) (s.readReg ⟨b.toNat, hb⟩)
    · exact ⟨_, exec_div_faulting a b d s ha hb hd hfault, .inr (.inr (haltedWith_halt .arithmeticFault s))⟩
    · exact ⟨_, exec_div_completes a b d s ha hb hd hfault, .inl (onlyRegisterAndRemWritten_writeReg_setRem d _ _ s hd)⟩
  · exact ⟨_, exec_div_illegal a b d s hillegal, .inr (.inl (haltedWith_halt .invalidRegister s))⟩

/-- Settles O43: each of the four instructions writes its register alone or halts. -/
theorem frameOfLoadAddSubMul : Obligations.FrameOfLoadAddSubMul := by
  intro i a b d imm s hi
  have hends : ∃ t, exec i s = .next t ∧ (OnlyRegisterWritten d 0 s t ∨ HaltedWith .invalidRegister 0 [] s t) := by
    rcases hi with rfl | rfl | rfl | rfl
    · exact exec_load_ends d imm s
    · exact registerForm_writeResult_ends (· + ·) a b d s
    · exact registerForm_writeResult_ends (· - ·) a b d s
    · exact registerForm_writeResult_ends (· * ·) a b d s
  obtain ⟨t, hexec, ⟨hregs, hrem, hpc, hstatus, hnotices, hprog⟩ | ⟨hstatus, hpc, hnotices, hx, hrem, hprog⟩⟩ := hends
  · exact ⟨t, hexec, hregs, hrem, hpc, hnotices, hprog, .inl hstatus⟩
  · rw [List.append_nil] at hnotices
    exact ⟨t, hexec, sameRegsExcept_of_x_eq d s t hx, hrem, hpc, hnotices, hprog, .inr ⟨hstatus, hx⟩⟩

/-- R129: the frame of DIV for a halt with either cause. -/
theorem frameOfDiv_of_halted {c : Cause} {d : Byte} {s t : State} (h : HaltedWith c 0 [] s t)
    (hc : c = .invalidRegister ∨ c = .arithmeticFault) :
    SameRegsExcept d s t ∧ t.pc = s.pc ∧ t.notices = s.notices ∧ SameProgram s t ∧
      (t.status = s.status ∨ ((t.status = .halted .invalidRegister ∨ t.status = .halted .arithmeticFault) ∧
        t.x = s.x ∧ t.rem = s.rem)) := by
  obtain ⟨hstatus, hpc, hnotices, hx, hrem, hprog⟩ := h
  rw [List.append_nil] at hnotices
  have hcause : t.status = .halted .invalidRegister ∨ t.status = .halted .arithmeticFault := by
    rcases hc with rfl | rfl
    · exact .inl hstatus
    · exact .inr hstatus
  exact ⟨sameRegsExcept_of_x_eq d s t hx, hpc, hnotices, hprog, .inr ⟨hcause, hx, hrem⟩⟩

/-- Settles O44: DIV writes its register and `rem` alone, or halts with one of its two causes. -/
theorem frameOfDiv : Obligations.FrameOfDiv := by
  intro a b d s
  obtain ⟨t, hexec, ⟨hregs, hpc, hstatus, hnotices, hprog⟩ | hhalted | hhalted⟩ := exec_div_ends a b d s
  · exact ⟨t, hexec, hregs, hpc, hnotices, hprog, .inl hstatus⟩
  · exact ⟨t, hexec, frameOfDiv_of_halted hhalted (.inl rfl)⟩
  · exact ⟨t, hexec, frameOfDiv_of_halted hhalted (.inr rfl)⟩

end Sys2Proof.Machine
end

section
/-! What a step reads. A step is an `Effect` applied after the fetches, and the effect is a function of what the step reads alone: the
source registers (10_state.md R13), `pc`, `len`, the status and the bytes below `len` (20_memory.md R33); neither `rem` (R18) nor the
notices (R78). -/

namespace Sys2Proof.Machine

/-! ### Effects -/

/-- What a step does once its bytes are fetched and its operands are read. -/
inductive Effect where
  /-- R110, R111, R129: notices, and a halt. -/
  | halt (emitted : List Notice) (c : Cause)
  /-- R85, R90: the destination register takes a value. -/
  | write (v : Word)
  /-- R100: the destination register takes the quotient, `rem` the remainder. -/
  | divide (q r : Word)

/-- The effect on a state, given the destination register. -/
def Effect.apply (dst : Fin 32) (s : State) : Effect → State
  | .halt emitted c => ({ s with notices := s.notices ++ emitted } : State).halt c
  | .write v => s.writeReg dst v
  | .divide q r => (s.writeReg dst q).setRem r

/-- R78: the notices an effect emits. -/
def Effect.emitted : Effect → List Notice
  | .halt emitted _ => emitted
  | .write _ => []
  | .divide _ _ => []

/-- R129: a halt without a notice is an effect. -/
@[simp] theorem Effect.apply_halt_nil (c : Cause) (dst : Fin 32) (s : State) :
    (Effect.halt [] c).apply dst s = s.halt c := by
  simp [Effect.apply]

/-- R78: an effect only appends to the trace. -/
theorem Effect.apply_notices (e : Effect) (dst : Fin 32) (s : State) :
    (e.apply dst s).notices = s.notices ++ e.emitted := by
  cases e with
  | halt emitted c => rfl
  | write v => exact (List.append_nil _).symm
  | divide q r => exact (List.append_nil _).symm

/-! ### What an instruction reads -/

/-- R13: the registers an instruction reads, by its index bytes. -/
def sourceRegs : Instr → List (Fin 32)
  | .hlt => []
  | .load _ _ => []
  | .add a b _ => [regSelect a, regSelect b]
  | .sub a b _ => [regSelect a, regSelect b]
  | .mul a b _ => [regSelect a, regSelect b]
  | .div a b _ => [regSelect a, regSelect b]

/-- R13: the register an instruction can write, by its index byte; HLT writes none. -/
def destReg : Instr → Fin 32
  | .hlt => 0
  | .load d _ => regSelect d
  | .add _ _ d => regSelect d
  | .sub _ _ d => regSelect d
  | .mul _ _ d => regSelect d
  | .div _ _ d => regSelect d

/-- R69, R100: what follows the index check of DIV is an effect of the two operand values. -/
theorem finishDiv_effect (v w : Word) : ∃ e : Effect, ∀ dst s, finishDiv v w dst s = e.apply dst s := by
  cases hfault : divFaults v w with
  | true => exact ⟨.halt [] .arithmeticFault, fun dst s => by rw [finishDiv, if_pos hfault, Effect.apply_halt_nil]⟩
  | false => exact ⟨.divide _ _, fun dst s => if_neg (by simp [hfault])⟩

/-- R69, R70: format R is an effect of the two operand values, where what follows the index check is one. -/
theorem registerForm_effect (a b d : Byte) (finish : Word → Word → Fin 32 → State → State) (read : Fin 32 → Word)
    (hfinish : ∀ v w, ∃ e : Effect, ∀ dst s, finish v w dst s = e.apply dst s) :
    ∃ e : Effect, ∀ s : State, (∀ r ∈ [regSelect a, regSelect b], s.readReg r = read r) →
      registerForm a b d finish s = e.apply (regSelect d) s := by
  cases hlegal : (indexLegal a && indexLegal b && indexLegal d) with
  | true =>
    obtain ⟨e, he⟩ := hfinish (read (regSelect a)) (read (regSelect b))
    refine ⟨e, fun s hread => ?_⟩
    rw [registerForm, if_pos hlegal, hread _ (by simp), hread _ (by simp), he]
  | false => exact ⟨.halt [] .invalidRegister, fun s _ => by simp [registerForm, hlegal]⟩

/-- R13: what an instruction does is a function of its source registers. -/
theorem exec_effect (i : Instr) (read : Fin 32 → Word) : ∃ e : Effect, ∀ s : State,
    (∀ r ∈ sourceRegs i, s.readReg r = read r) → exec i s = .next (e.apply (destReg i) s) := by
  have shared : ∀ (op : Int → Int → Int) (a b d : Byte), ∃ e : Effect, ∀ s : State,
      (∀ r ∈ [regSelect a, regSelect b], s.readReg r = read r) →
        registerForm a b d (writeResult op) s = e.apply (regSelect d) s :=
    fun op a b d => registerForm_effect a b d _ read fun v w => ⟨.write _, fun _ _ => rfl⟩
  cases i with
  | hlt => exact ⟨.halt [.haltNotice] .hlt, fun s _ => exec_hlt s⟩
  | load d imm =>
    cases hlegal : indexLegal d with
    | true => exact ⟨.write (zext32 imm), fun s _ => congrArg Host.Outcome.next (if_pos hlegal)⟩
    | false =>
      exact ⟨.halt [] .invalidRegister, fun s _ => congrArg Host.Outcome.next (by simp [immediateForm, hlegal])⟩
  | add a b d =>
    obtain ⟨e, he⟩ := shared (· + ·) a b d
    exact ⟨e, fun s hread => congrArg Host.Outcome.next (he s hread)⟩
  | sub a b d =>
    obtain ⟨e, he⟩ := shared (· - ·) a b d
    exact ⟨e, fun s hread => congrArg Host.Outcome.next (he s hread)⟩
  | mul a b d =>
    obtain ⟨e, he⟩ := shared (· * ·) a b d
    exact ⟨e, fun s hread => congrArg Host.Outcome.next (he s hread)⟩
  | div a b d =>
    obtain ⟨e, he⟩ := registerForm_effect a b d finishDiv read finishDiv_effect
    exact ⟨e, fun s hread => congrArg Host.Outcome.next (he s hread)⟩

/-- R13: the effect of an instruction on two states that differ in their registers alone. -/
theorem Effect.apply_with_regs (e : Effect) (dst : Fin 32) (s : State) (regs : Vector Word 32) :
    (e.apply dst { s with x := regs }).status = (e.apply dst s).status ∧
    (e.apply dst { s with x := regs }).rem = (e.apply dst s).rem ∧
    ((e.apply dst s).status = .running →
      (e.apply dst { s with x := regs }).readReg dst = (e.apply dst s).readReg dst) := by
  cases e with
  | halt emitted c => exact ⟨rfl, rfl, fun h => by simp [Effect.apply] at h⟩
  | write v => exact ⟨rfl, rfl, fun _ => by simp [Effect.apply]⟩
  | divide q r => exact ⟨rfl, rfl, fun _ => by simp [Effect.apply]⟩

/-- Settles O45: with its sources unchanged an instruction has the same effect. -/
theorem instructionsReadNoRegisterButTheirSources : Obligations.InstructionsReadNoRegisterButTheirSources := by
  intro i a b d imm s regs _ _ hi
  have hsources : (∀ r ∈ sourceRegs i, regs[r] = s.readReg r) ∧ destReg i = regSelect d := by
    rcases hi with rfl | ⟨rfl | rfl | rfl | rfl, ha, hb⟩
    case inl => exact ⟨List.forall_mem_nil _, rfl⟩
    all_goals exact ⟨List.forall_mem_cons.2 ⟨ha, List.forall_mem_singleton.2 hb⟩, rfl⟩
  obtain ⟨hread, hdest⟩ := hsources
  obtain ⟨e, he⟩ := exec_effect i s.readReg
  exact ⟨_, _, he s fun _ _ => rfl, he _ hread, hdest ▸ e.apply_with_regs (destReg i) s regs⟩

/-! ### What a step reads -/

/-- R13, R33: two states agree on everything that a step can read. -/
structure ReadsAlike (s s' : State) : Prop where
  x : s'.x = s.x
  pc : s'.pc = s.pc
  len : s'.len = s.len
  status : s'.status = s.status
  byte : ∀ k, k < s.len → s'.prog.read k = s.prog.read k

theorem ReadsAlike.refl (s : State) : ReadsAlike s s := ⟨rfl, rfl, rfl, rfl, fun _ _ => rfl⟩

section Alike
variable {s s' : State} (h : ReadsAlike s s')
include h

/-- R67: the two states have the same opcode byte at `pc`. -/
theorem ReadsAlike.opcode (hp : s.pc < s.len) : s'.prog.read s'.pc = s.prog.read s.pc := by
  rw [h.pc, h.byte _ hp]

/-- R66: the two states have the same instruction at `pc`. -/
theorem ReadsAlike.instrAtPc (hp : s.pc + 4 ≤ s.len) : s'.instrAtPc = s.instrAtPc := by
  rw [State.instrAtPc, h.pc, h.byte _ (by omega), h.byte _ (by omega), h.byte _ (by omega), h.byte _ (by omega)]
  rfl

end Alike

/-- R76: a step while HALTED has the effect of the same halt again. -/
theorem halt_again (s : State) (c : Cause) (hs : s.status = .halted c) : s = (s.setPc s.pc).halt c := by
  cases s
  cases hs
  rfl

/-- R66: a step is an effect after an advance of `pc`, the same in all states that read alike. One case for each thing a step can
meet. -/
theorem step_effect (s : State) : ∃ (e : Effect) (dst : Fin 32) (k : Nat), ∀ s', ReadsAlike s s' →
    step s' = .next (e.apply dst (s'.setPc k)) := by
  rcases step_cases s with ⟨c, hs, -⟩ | ⟨hs, hp, -⟩ | ⟨hs, hp, hzero, -⟩ | ⟨hs, hp, h6, -⟩ | ⟨hs, hp, h1, h5, hl, -⟩ |
    ⟨hs, hp, h1, h5, -⟩
  · refine ⟨.halt [] c, 0, s.pc, fun s' h => ?_⟩
    have hs' := h.status.trans hs
    rw [step_halted s' c hs', Effect.apply_halt_nil, ← h.pc, ← halt_again s' c hs']
  · refine ⟨.halt [] .exhausted, 0, s.pc, fun s' h => ?_⟩
    rw [step_exhausted s' (h.status.trans hs) (h.len ▸ h.pc ▸ hp), Effect.apply_halt_nil, ← h.pc]
    rfl
  · refine ⟨.halt [.haltNotice] .hlt, 0, s.pc + 1, fun s' h => ?_⟩
    rw [step_hlt s' (h.status.trans hs) (h.len ▸ h.pc ▸ hp) ((h.opcode hp).trans hzero), exec_hlt, ← h.pc]
    rfl
  · refine ⟨.halt [.illegalNotice] .illegalOpcode, 0, s.pc + 1, fun s' h => ?_⟩
    rw [step_illegal s' (h.status.trans hs) (h.len ▸ h.pc ▸ hp) (h.opcode hp ▸ h6), ← h.pc]
    rfl
  · refine ⟨.halt [] .truncated, 0, s.len, fun s' h => ?_⟩
    have hopcode := h.opcode hp
    rw [step_truncated s' (h.status.trans hs) (h.len ▸ h.pc ▸ hp) (hopcode ▸ h1) (hopcode ▸ h5) (h.len ▸ h.pc ▸ hl),
      Effect.apply_halt_nil, h.len]
  · obtain ⟨e, he⟩ := exec_effect s.instrAtPc s.readReg
    refine ⟨e, destReg s.instrAtPc, s.pc + 4, fun s' h => ?_⟩
    have hopcode := h.opcode (by omega)
    have hstep : step s' = exec s'.instrAtPc (s'.setPc (s'.pc + 4)) :=
      step_operands s' (h.status.trans hs) (h.len ▸ h.pc ▸ hp) (hopcode ▸ h1) (hopcode ▸ h5)
    rw [hstep, h.instrAtPc hp, h.pc]
    exact he _ fun r _ => readReg_congr s r _ h.x

/-- Settles O47: the effect is the same, and leaves `rem` alone or overwrites it. -/
theorem noStepReadsRem : Obligations.NoStepReadsRem := by
  intro s w
  obtain ⟨e, dst, k, hstep⟩ := step_effect s
  refine ⟨_, hstep s (.refl s), ?_⟩
  rw [hstep { s with rem := w } ⟨rfl, rfl, rfl, rfl, fun _ _ => rfl⟩]
  cases e with
  | halt emitted c => exact .inl ⟨rfl, rfl⟩
  | write v => exact .inl ⟨rfl, rfl⟩
  | divide q r => exact .inr rfl

/-- Settles O49: the effect is the same, and passes the program through. -/
theorem noStepReadsAtOrAboveTheEnd : Obligations.NoStepReadsAtOrAboveTheEnd := by
  intro s m hbelow
  obtain ⟨e, dst, k, hstep⟩ := step_effect s
  refine ⟨_, hstep s (.refl s), ?_⟩
  rw [hstep { s with prog := m } ⟨rfl, rfl, rfl, rfl, hbelow⟩]
  cases e <;> rfl

/-- Settles O50: the effect is the same, and appends the same notices to any trace. -/
theorem noStepReadsTheNotices : Obligations.NoStepReadsTheNotices := by
  intro s l
  obtain ⟨e, dst, k, hstep⟩ := step_effect s
  refine ⟨_, e.emitted, hstep s (.refl s), e.apply_notices dst _, ?_⟩
  rw [hstep { s with notices := l } ⟨rfl, rfl, rfl, rfl, fun _ _ => rfl⟩]
  cases e with
  | halt emitted c => rfl
  | write v => rw [Effect.emitted, List.append_nil]; rfl
  | divide q r => rw [Effect.emitted, List.append_nil]; rfl

end Sys2Proof.Machine
end

section
/-! The step and the decoder: a RUNNING step runs what `decode` makes of the bytes from `pc` on (40_step_decode.md R66), a stored table
word included (log 5, log 6), and `done` says how it ended (R73). -/

namespace Sys2Proof.Machine

/-! ### The bytes from `pc` on -/

/-- R6, R33: byte `k` of the bytes from `pc` on is byte `pc + k` of the program. -/
theorem remaining_getElem? (s : State) (k : Nat) : s.remaining[k]? = s.byteAt (s.pc + k) := by
  by_cases hk : s.pc + k < s.len
  · have hrange : k < s.len - s.pc := by omega
    simp [State.remaining, State.byteAt, hk, hrange]
  · have hrange : ¬ k < s.len - s.pc := by omega
    simp [State.remaining, State.byteAt, hk, hrange]

theorem remaining_length (s : State) : s.remaining.length = s.len - s.pc := by
  simp [State.remaining]

section Remaining
variable {s : State} {b0 : Byte} {rest : List Byte}

/-- R67: the first of the bytes from `pc` on is the opcode byte. -/
theorem byteAt_pc_of_remaining (h : s.remaining = b0 :: rest) : s.byteAt s.pc = some b0 := by
  rw [← Nat.add_zero s.pc, ← remaining_getElem?, h]
  rfl

/-- R68: the bytes from `pc` on end at `len`. -/
theorem len_of_remaining (h : s.remaining = b0 :: rest) : s.len = s.pc + 1 + rest.length := by
  have hlen := remaining_length s
  rw [h, List.length_cons] at hlen
  omega

/-- R68: the first four of the bytes from `pc` on are those of the instruction there. -/
theorem bytesAtPc_of_remaining {o1 o2 o3 : Byte} (h : s.remaining = b0 :: o1 :: o2 :: o3 :: rest) :
    s.BytesAtPc b0 o1 o2 o3 := by
  refine ⟨byteAt_pc_of_remaining h, ?_, ?_, ?_⟩ <;> rw [← remaining_getElem?, h] <;> rfl

end Remaining

/-! ### The decoded instruction -/

/-- Settles O16: the decoder gives an HLT or an instruction with operands, and the step runs either with `pc` past its bytes. -/
theorem stepRunsTheDecodedInstruction : Obligations.StepRunsTheDecodedInstruction := by
  intro s i rest hs hdecode
  have hends := decode_ends s.remaining
  rw [hdecode] at hends
  generalize hbytes : s.remaining = bytes at hends
  cases hends with
  | hlt =>
    obtain ⟨hp, hzero⟩ := (byteAt_eq_some _ _ _).1 (byteAt_pc_of_remaining hbytes)
    exact step_hlt s hs hp hzero
  | operands b0 o1 o2 o3 _ h1 h5 =>
    rw [encode_instrOf b0 o1 o2 o3 h1 h5]
    exact step_of_bytesAtPc s b0 o1 o2 o3 hs (bytesAtPc_of_remaining hbytes) h1 h5

/-- R52, R54, R67: where the decoder gives no instruction the step halts. -/
theorem step_halts_of_decode_error (s : State) (reject : DecodeReject) (hs : s.status = .running)
    (hdecode : decode s.remaining = .error reject) : ∃ t, step s = .next t ∧ t.status ≠ .running := by
  have hends := decode_ends s.remaining
  rw [hdecode] at hends
  generalize hbytes : s.remaining = bytes at hends
  cases hends with
  | noOpcode =>
    have hp : s.len ≤ s.pc := by simpa [hbytes, Nat.sub_eq_zero_iff_le] using (remaining_length s).symm
    exact ⟨_, step_exhausted s hs hp, by simp⟩
  | illegal b0 rest h6 =>
    obtain ⟨t, hstep, ⟨hstatus, -⟩, -⟩ := illegalOpcodeHaltsWithNotice s b0 hs (byteAt_pc_of_remaining hbytes) h6
    exact ⟨t, hstep, by simp [hstatus]⟩
  | truncated b0 rest h1 h5 hshort =>
    have hlen := len_of_remaining hbytes
    obtain ⟨t, hstep, ⟨hstatus, -⟩, -⟩ :=
      step_truncated_haltedWith s b0 hs (byteAt_pc_of_remaining hbytes) h1 h5 (by omega)
    exact ⟨t, hstep, by simp [hstatus]⟩

/-! ### A stored table word -/

/-- Log 5: the bytes stored at `pc` are the first of the bytes from `pc` on. -/
theorem storeAtPc_remaining (s : State) (bytes : List Byte) (hw : s.prog.wf) :
    ∃ rest, (storeAtPc s bytes).remaining = bytes ++ rest := by
  have hstored : bytes <+: (storeAtPc s bytes).remaining := by
    refine List.prefix_iff_getElem?.2 fun k hk => ?_
    have hlen : s.pc + k < max s.len (s.pc + bytes.length) := by omega
    rw [remaining_getElem?, byteAt_eq_some]
    exact ⟨hlen, Memory.read_writeBytes s.prog hw s.pc bytes k hk⟩
  obtain ⟨rest, h⟩ := hstored
  exact ⟨rest, h.symm⟩

/-- Settles O15: the bytes from `pc` on begin with the instruction's own, so they decode to it and the step runs it. -/
theorem stepAfterStoringATableWordRunsIt : Obligations.StepAfterStoringATableWordRunsIt := by
  intro s i hw
  obtain ⟨rest, hremaining⟩ := storeAtPc_remaining s (tableBytes (8 * (encode i).length) (tableWord i)) hw
  rw [tableBytes_tableWord, List.append_assoc] at hremaining
  have hdecode := decodeOfEncodeIsTheInstruction i (List.replicate (4 - (encode i).length) 0 ++ rest)
  rw [← hremaining, ← tableBytes_tableWord] at hdecode
  exact stepRunsTheDecodedInstruction (s.withFetchWord (8 * (encode i).length) (tableWord i)) i _ rfl hdecode

/-! ### `done` -/

/-- R73: the conditions under which an instruction completes and the run goes on. -/
def CompletesRunning (i : Instr) (s : State) : Prop :=
  i.wellFormed = true ∧ i ≠ .hlt ∧
    ∀ a b d, i = .div a b d → ¬ FaultingOperands (s.readReg (regSelect a)) (s.readReg (regSelect b))

/-- R102, R103: a DIV with legal indices ends RUNNING unless its operands fault. -/
theorem exec_div_running_iff (a b d : Byte) (s t : State) (hs : s.status = .running)
    (hw : (Instr.div a b d).wellFormed = true) (h : exec (.div a b d) s = .next t) :
    t.status = .running ↔ ¬ FaultingOperands (s.readReg (regSelect a)) (s.readReg (regSelect b)) := by
  rw [execDiv_wellFormed a b d s hw] at h
  cases h
  rw [FaultingOperands, ← divFaults_iff]
  rcases finishDiv_cases (s.readReg (regSelect a)) (s.readReg (regSelect b)) (regSelect d) s with ⟨hfault, h⟩ | ⟨hfault, h⟩
  · simp [h, hfault]
  · simp [h, hfault, hs]

/-- R73: an instruction ends RUNNING exactly when it completes and is not HLT, one case for each end it can come to. -/
theorem exec_running_iff (i : Instr) (s t : State) (hs : s.status = .running) (h : exec i s = .next t) :
    t.status = .running ↔ CompletesRunning i s := by
  rw [CompletesRunning]
  by_cases hdiv : ∃ a b d, i = .div a b d ∧ i.wellFormed = true
  · obtain ⟨a, b, d, rfl, hw⟩ := hdiv
    simp [exec_div_running_iff a b d s t hs hw h, hw]
  · rcases exec_cases i s with ⟨rfl, hlt⟩ | ⟨hw, invalid⟩ | ⟨⟨a, b, d, hi⟩, hw, -⟩ | ⟨hw, hnotDiv, r, v, written⟩ |
      ⟨hw, ⟨a, b, d, hi⟩, -⟩
    · cases hlt.symm.trans h
      simp
    · cases invalid.symm.trans h
      simp [hw]
    · exact absurd ⟨a, b, d, hi, hw⟩ hdiv
    · have hnotHlt : i ≠ .hlt := by
        rintro rfl
        have hstatus := congrArg State.status (Host.Outcome.next.inj written)
        simp [hs] at hstatus
      cases written.symm.trans h
      simp [hw, hnotHlt, hnotDiv, hs]
    · exact absurd ⟨a, b, d, hi, hw⟩ hdiv

/-- R66, R73: a step that decodes an instruction ends RUNNING exactly when that instruction completes and is not HLT; the advance of
`pc` changes no operand. -/
theorem step_running_iff (i : Instr) (rest : List Byte) (s t : State) (hs : s.status = .running)
    (hdecode : decode s.remaining = .ok (i, rest)) (hstep : step s = .next t) :
    t.status = .running ↔ CompletesRunning i s := by
  rw [stepRunsTheDecodedInstruction s i rest hs hdecode] at hstep
  exact exec_running_iff i (s.setPc (s.pc + (encode i).length)) t hs hstep

/-- Settles O6: the step of a RUNNING state halts where the decoder gives no instruction, and otherwise ends as that instruction
does. -/
theorem doneIsTrueExactlyWhenTheStepEndsHalted : Obligations.DoneIsTrueExactlyWhenTheStepEndsHalted := by
  intro cfg s
  obtain ⟨t, hstep, hends⟩ := step_answers_next s
  refine ⟨t, stepDone t, hostOp_step cfg s t hstep, hstep, stepDone_iff t, ?_⟩
  have hdone : stepDone t = false ↔ t.status = .running := by simpa using (stepDone_iff t).not
  rw [hdone]
  constructor
  · intro ht
    obtain ⟨hs, -, -⟩ := hends.of_running ht
    refine ⟨hs, ?_⟩
    cases hdecode : decode s.remaining with
    | error reject =>
      obtain ⟨u, hu, hhalted⟩ := step_halts_of_decode_error s reject hs hdecode
      cases hu.symm.trans hstep
      exact absurd ht hhalted
    | ok decoded =>
      obtain ⟨i, rest⟩ := decoded
      exact ⟨i, rest, rfl, (step_running_iff i rest s t hs hdecode hstep).1 ht⟩
  · rintro ⟨hs, i, rest, hdecode, hcompletes⟩
    exact (step_running_iff i rest s t hs hdecode hstep).2 hcompletes

end Sys2Proof.Machine
end
